-- ==== Sys2Proof/Word.lean ====
section
/-! DEFINITION. The word types of the WIFC-320 core (00_scope.md R7, R8): bytes, limbs and 320-bit values. -/

namespace Sys2Proof

/-- `U8` of R7: a byte, and a character of a string (R9). -/
abbrev Byte := BitVec 8

/-- `U64` of R7: one limb, the operand `WDATA`, the response datum `RDATA`. -/
abbrev Limb := BitVec 64

/-- `U320` of R7: a value of five limbs, limb 0 least significant (R8). -/
abbrev U320 := BitVec 320

/-- The number of a value register, `W[0]` to `W[3]` (R20). -/
abbrev Reg := Fin 4

/-- The number of a limb of a value, 0 to 4 (R8). -/
abbrev LimbIndex := Fin 5

end Sys2Proof
end

