-- ==== Sys2Proof/Syntax.lean ====
section
/-! DEFINITION. The 14 commands (30_encoding.md R65), one constructor each, with the fields of their format (R63) and,
where the command uses it, the operand `WDATA` (R60). A field keeps the width the command word gives it (R62), so
that a limb index above 4 and a length above 64 can be written down and refused (R66). -/

namespace Sys2Proof

/-- A command. `rd` is the destination register, `ra` and `rb` the sources, `k` the limb index, `addr` the buffer
address, `imm8` the immediate byte (R62, R64). -/
inductive Instr where
  /-- `LDZ rd, #wdata` (R80). -/
  | ldz (rd : Reg) (wdata : Limb)
  /-- `LDL rd, k, #wdata` (R81). -/
  | ldl (rd : Reg) (k : BitVec 3) (wdata : Limb)
  /-- `RDL ra, k` (R82). -/
  | rdl (ra : Reg) (k : BitVec 3)
  /-- `ADD rd, ra, rb` (R92). -/
  | add (rd ra rb : Reg)
  /-- `MULS rd, ra, #wdata` (R96). -/
  | muls (rd ra : Reg) (wdata : Limb)
  /-- `TOBYTES ra` (R112). -/
  | tobytes (ra : Reg)
  /-- `DECODE rd` (R128). -/
  | decode (rd : Reg)
  /-- `ENCODE ra` (R126). -/
  | encode (ra : Reg)
  /-- `FCHK ra` (R142). -/
  | fchk (ra : Reg)
  /-- `VALID ra` (R146). -/
  | valid (ra : Reg)
  /-- `SB addr, imm8` (R160). -/
  | sb (addr : BitVec 6) (imm8 : Byte)
  /-- `LB addr` (R161). -/
  | lb (addr : BitVec 6)
  /-- `SLEN imm8` (R162). -/
  | slen (imm8 : Byte)
  /-- `GLEN` (R163). -/
  | glen
deriving DecidableEq, Repr

/-- A command as the host presents it: the 32-bit word `CMD` and the 64-bit operand `WDATA` (R60). -/
structure Command where
  cmd : BitVec 32
  wdata : Limb
deriving DecidableEq, Repr

end Sys2Proof
end

