-- ==== Sys2Proof/WellFormed.lean ====
section
/-! DEFINITION. The two range checks of 30_encoding.md R66, steps 2 and 3. -/

namespace Sys2Proof

/-- A command the core accepts: a limb index is at most 4 and a length at most 64 (R64, R66); every other field value
is legal. -/
def Instr.wellFormed : Instr → Bool
  | .ldl _ k _ => k.toNat ≤ 4
  | .rdl _ k => k.toNat ≤ 4
  | .slen imm8 => imm8.toNat ≤ 64
  | .ldz _ _ => true
  | .add _ _ _ => true
  | .muls _ _ _ => true
  | .tobytes _ => true
  | .decode _ => true
  | .encode _ => true
  | .fchk _ => true
  | .valid _ => true
  | .sb _ _ => true
  | .lb _ => true
  | .glen => true

/-- The check as a proposition. -/
abbrev WellFormed (i : Instr) : Prop := i.wellFormed = true

end Sys2Proof
end

