-- ==== Sys2Proof/Decode.lean ====
section
/-! DEFINITION. The decoder of 30_encoding.md R66 over the rows of R65, total on every word, and the encoder of R62. -/

namespace Sys2Proof

/-- The opcode a row of R65 stands for. -/
inductive Opcode where
  | LDZ | LDL | RDL | ADD | MULS | TOBYTES | DECODE | ENCODE | FCHK | VALID | SB | LB | SLEN | GLEN
deriving DecidableEq, Repr

/-- A row of R65: a word selects it when the word ANDed with `mask` is `pattern`. -/
structure Row where
  opcode : Opcode
  pattern : BitVec 32
  mask : BitVec 32
deriving DecidableEq, Repr

/-- Why a word is no legal command; every reason gives the same response, `IllegalCommand` (R66, R67). -/
inductive Illegal where
  /-- Step 1 of R66: no row matches (an unassigned opcode, or a bit outside the format's fields is set). -/
  | noRow
  /-- Step 2 of R66: the limb index of `LDL` or `RDL` is above 4. -/
  | limbIndex
  /-- Step 3 of R66: the length of `SLEN` is above 64. -/
  | length
deriving DecidableEq, Repr

/-- What the decoder answers: the command a word spells, or why it spells none. -/
inductive Decoded where
  | legal (i : Instr)
  | illegal (why : Illegal)
deriving DecidableEq, Repr

/-- The `match` and `mask` columns of R65. -/
def Opcode.row : Opcode → Row
  | .LDZ => ⟨.LDZ, 0x01000000#32, 0xFF3FFFFF#32⟩
  | .LDL => ⟨.LDL, 0x02000000#32, 0xFF3C7FFF#32⟩
  | .RDL => ⟨.RDL, 0x03000000#32, 0xFFCC7FFF#32⟩
  | .ADD => ⟨.ADD, 0x10000000#32, 0xFF03FFFF#32⟩
  | .MULS => ⟨.MULS, 0x11000000#32, 0xFF0FFFFF#32⟩
  | .TOBYTES => ⟨.TOBYTES, 0x20000000#32, 0xFFCFFFFF#32⟩
  | .DECODE => ⟨.DECODE, 0x30000000#32, 0xFF3FFFFF#32⟩
  | .ENCODE => ⟨.ENCODE, 0x31000000#32, 0xFFCFFFFF#32⟩
  | .FCHK => ⟨.FCHK, 0x40000000#32, 0xFFCFFFFF#32⟩
  | .VALID => ⟨.VALID, 0x41000000#32, 0xFFCFFFFF#32⟩
  | .SB => ⟨.SB, 0x50000000#32, 0xFFFFC000#32⟩
  | .LB => ⟨.LB, 0x51000000#32, 0xFFFFC0FF#32⟩
  | .SLEN => ⟨.SLEN, 0x52000000#32, 0xFFFFFF00#32⟩
  | .GLEN => ⟨.GLEN, 0x53000000#32, 0xFFFFFFFF#32⟩

/-- The 14 rows of R65, in the table's order. -/
def rows : List Row :=
  [Opcode.LDZ, .LDL, .RDL, .ADD, .MULS, .TOBYTES, .DECODE, .ENCODE, .FCHK, .VALID, .SB, .LB, .SLEN, .GLEN].map
    Opcode.row

/-- A word selects a row (R65). -/
def Row.selects (r : Row) (cmd : BitVec 32) : Bool := cmd &&& r.mask == r.pattern

/-- Step 1 of R66. -/
def findRow (cmd : BitVec 32) : Option Row := rows.find? fun r => r.selects cmd

/-- The field of a word whose least significant bit is `lo` (R62, R64). -/
def field (cmd : BitVec 32) (lo width : Nat) : BitVec width := cmd.extractLsb' lo width

/-- A register field: two bits whose least significant bit is `lo` (R62). -/
def regField (cmd : BitVec 32) (lo : Nat) : Reg := (field cmd lo 2).toFin

/-- The command of a row with the field values of R62 and the operand `WDATA`, before the range checks. -/
def buildInstr (op : Opcode) (cmd : BitVec 32) (wdata : Limb) : Instr :=
  match op with
  | .LDZ => .ldz (regField cmd 22) wdata
  | .LDL => .ldl (regField cmd 22) (field cmd 15 3) wdata
  | .RDL => .rdl (regField cmd 20) (field cmd 15 3)
  | .ADD => .add (regField cmd 22) (regField cmd 20) (regField cmd 18)
  | .MULS => .muls (regField cmd 22) (regField cmd 20) wdata
  | .TOBYTES => .tobytes (regField cmd 20)
  | .DECODE => .decode (regField cmd 22)
  | .ENCODE => .encode (regField cmd 20)
  | .FCHK => .fchk (regField cmd 20)
  | .VALID => .valid (regField cmd 20)
  | .SB => .sb (field cmd 8 6) (field cmd 0 8)
  | .LB => .lb (field cmd 8 6)
  | .SLEN => .slen (field cmd 0 8)
  | .GLEN => .glen

/-- Steps 2 and 3 of R66. -/
def rangeCheck (i : Instr) : Decoded :=
  match i with
  | .ldl _ k _ => if 4 < k.toNat then .illegal .limbIndex else .legal i
  | .rdl _ k => if 4 < k.toNat then .illegal .limbIndex else .legal i
  | .slen imm8 => if 64 < imm8.toNat then .illegal .length else .legal i
  | .ldz _ _ | .add _ _ _ | .muls _ _ _ | .tobytes _ | .decode _ | .encode _ | .fchk _ | .valid _ | .sb _ _ | .lb _
  | .glen => .legal i

/-- The decoder of R66: total, every word is exactly one legal command or illegal. -/
def decode (cmd : BitVec 32) (wdata : Limb) : Decoded :=
  match findRow cmd with
  | none => .illegal .noRow
  | some r => rangeCheck (buildInstr r.opcode cmd wdata)

/-- The word of R62 from its fields: `op*2^24 + rd*2^22 + ra*2^20 + rb*2^18 + k*2^15 + addr*2^8 + imm8`. -/
def assembleWord (op : BitVec 8) (rd ra rb : Reg) (k : BitVec 3) (addr : BitVec 6) (imm8 : Byte) : BitVec 32 :=
  BitVec.ofNat 32 (op.toNat * 2 ^ 24 + rd.val * 2 ^ 22 + ra.val * 2 ^ 20 + rb.val * 2 ^ 18 + k.toNat * 2 ^ 15
    + addr.toNat * 2 ^ 8 + imm8.toNat)

/-- The encoder: a field the command does not use is 0 (R62), and `WDATA` is 0 where it is not used (R69). -/
def encode (i : Instr) : Command :=
  match i with
  | .ldz rd wdata => ⟨assembleWord 0x01#8 rd 0 0 0 0 0, wdata⟩
  | .ldl rd k wdata => ⟨assembleWord 0x02#8 rd 0 0 k 0 0, wdata⟩
  | .rdl ra k => ⟨assembleWord 0x03#8 0 ra 0 k 0 0, 0⟩
  | .add rd ra rb => ⟨assembleWord 0x10#8 rd ra rb 0 0 0, 0⟩
  | .muls rd ra wdata => ⟨assembleWord 0x11#8 rd ra 0 0 0 0, wdata⟩
  | .tobytes ra => ⟨assembleWord 0x20#8 0 ra 0 0 0 0, 0⟩
  | .decode rd => ⟨assembleWord 0x30#8 rd 0 0 0 0 0, 0⟩
  | .encode ra => ⟨assembleWord 0x31#8 0 ra 0 0 0 0, 0⟩
  | .fchk ra => ⟨assembleWord 0x40#8 0 ra 0 0 0 0, 0⟩
  | .valid ra => ⟨assembleWord 0x41#8 0 ra 0 0 0 0, 0⟩
  | .sb addr imm8 => ⟨assembleWord 0x50#8 0 0 0 0 addr imm8, 0⟩
  | .lb addr => ⟨assembleWord 0x51#8 0 0 0 0 addr 0, 0⟩
  | .slen imm8 => ⟨assembleWord 0x52#8 0 0 0 0 0 imm8, 0⟩
  | .glen => ⟨assembleWord 0x53#8 0 0 0 0 0 0, 0⟩

/-- The opcode of a command (R65). -/
def Instr.opcode : Instr → Opcode
  | .ldz _ _ => .LDZ
  | .ldl _ _ _ => .LDL
  | .rdl _ _ => .RDL
  | .add _ _ _ => .ADD
  | .muls _ _ _ => .MULS
  | .tobytes _ => .TOBYTES
  | .decode _ => .DECODE
  | .encode _ => .ENCODE
  | .fchk _ => .FCHK
  | .valid _ => .VALID
  | .sb _ _ => .SB
  | .lb _ => .LB
  | .slen _ => .SLEN
  | .glen => .GLEN

/-- Whether the command uses `WDATA` (R60, R63). -/
def Opcode.usesWdata : Opcode → Bool
  | .LDZ | .LDL | .MULS => true
  | .RDL | .ADD | .TOBYTES | .DECODE | .ENCODE | .FCHK | .VALID | .SB | .LB | .SLEN | .GLEN => false

/-- The command whose bits are `w`, numbered as the opcode table numbers them: the command word in bits 31 to 0, the
operand `WDATA` in bits 95 to 32 (R60); the bits at and above `nbits` are 0. -/
def tableCommand (nbits w : Nat) : Command :=
  let bits := w % 2 ^ nbits
  ⟨BitVec.ofNat 32 bits, BitVec.ofNat 64 (bits / 2 ^ 32)⟩

/-- The instruction the decoder reads from `tableCommand`, none where it refuses the word. -/
def decodeTableWord (nbits w : Nat) : Option Instr :=
  match decode (tableCommand nbits w).cmd (tableCommand nbits w).wdata with
  | .legal i => some i
  | .illegal _ => none

end Sys2Proof
end

