-- ==== Sys2Proof/Config.lean ====
section
/-! DEFINITION. What the spec fixes for every core (R5, R6), the external hash as a parameter (R12), and the free values
of reads of state that nothing has written (R31, U1) and of an abandoned command (R190). -/

namespace Sys2Proof

/-- Which source operand of a command a read serves: `ra` or `rb` (R62). -/
inductive Source where
  | a
  | b
deriving DecidableEq, Repr

namespace Config

/-- `KEYLEN` of R5: the only string length the decoder accepts. -/
def keyLen : Nat := 52

/-- `RADIX` of R5. -/
def radix : Nat := 58

/-- `BUFSZ` of R6: bytes in `BUF`. -/
def bufSize : Nat := 64

/-- `NBYTES` of R5: bytes of the serialization. -/
def nBytes : Nat := 40

/-- The mask of R140: the compression flag in limb 0. -/
def flagMask : Limb := 0x000000FF00000000#64

/-- The value R140 compares the masked limb with. -/
def flagValue : Limb := 0x0000000100000000#64

/-- The most bytes a serialized string of `ENCODE` can have (R125). -/
def maxDigits : Nat := 55

/-- `SHA256` of R12: total, deterministic, 32 bytes, nothing else known of it. -/
opaque sha256 : List Byte → Vector Byte 32

/-- FREE VALUE (R31, U1): what a read of an unwritten limb gives; the draw index, the operand it serves, the limb. -/
opaque freeLimb : Nat → Source → LimbIndex → Limb

/-- FREE VALUE (R31, U1): what a read of an unwritten buffer byte gives; the draw index, the address. -/
opaque freeByte : Nat → Nat → Byte

/-- FREE VALUE (R190): how many of an abandoned command's hash requests had been sent before the reset. -/
opaque freeCount : Nat → Nat

end Config

end Sys2Proof
end

