-- ==== Sys2Proof/Machine/State.lean ====
section
/-! DEFINITION. The state of the core (10_state.md R20, R23, R24), what passes its ports (R61, R145, R192), why the model
may stop, and the reset state (R30). -/

namespace Sys2Proof.Machine

/-- One limb of a value register (R20) with the mark R31 gives it: whether a command has written it since reset.
While it is not written, a read gives a free value and `value` is not looked at. -/
structure LimbCell where
  value : Limb
  written : Bool
deriving DecidableEq, Repr

/-- A value register: five limbs, limb 0 least significant (R20). -/
abbrev ValueReg := Vector LimbCell 5

/-- `BUF` (R23): the bytes written since reset, as (address, byte) pairs; an address not listed has not been written and
a read of it gives a free value (R31). -/
abbrev Memory := List Host.Cell

/-- The response status (R61, R170). Values 4 to 15 are never produced, so the type has four (U6). -/
inductive Status where
  | ok
  | invalidLength
  | invalidCharacter
  | illegalCommand
deriving DecidableEq, Repr

/-- A response `(STATUS, RDATA)` (R61). -/
structure Response where
  status : Status
  rdata : Limb
deriving DecidableEq, Repr

/-- What the host does to the core (R192). -/
inductive HostEvent where
  /-- Presents a command to the idle core (R192, R193). -/
  | command (c : Command)
  /-- Asserts reset while the core is idle (R190). -/
  | reset
  /-- Presents a command and asserts reset before the core has responded (R190, U15). -/
  | resetDuring (c : Command)
  /-- Presents a second command before the first has been answered, which the spec forbids (R192, R193, U13). -/
  | overlap (first second : Command)
deriving DecidableEq, Repr

/-- The whole state. `w`, `buf` and `len` are the spec's (R15, R29); the other fields are the model's own: what the host
will do next, what has passed the response port and the hash port, the index of the next free draw, and whether the
hash unit answers (log entries 1, 2, 3, 6, 8). -/
structure State where
  /-- The value registers `W[0]` to `W[3]` (R20). -/
  w : Vector ValueReg 4
  /-- The byte buffer `BUF` (R23). -/
  buf : Memory
  /-- The length register `LEN` (R24). -/
  len : BitVec 7
  /-- What the host will do, oldest first. -/
  stream : List HostEvent
  /-- The responses sent, oldest first. -/
  responses : List Response
  /-- The byte sequences sent to the hash port, oldest first. -/
  hashReqs : List (List Byte)
  /-- The index of the next free draw. -/
  draws : Nat
  /-- Whether the hash unit answers its requests (R145, U5). -/
  hashUnitAnswers : Bool
deriving DecidableEq, Repr

/-- Why the machine stops with a fault. -/
inductive Fault where
  /-- Raised by `VALID` past stage 1 when the hash unit does not answer (R145, U5: stuck). Safe: the spec says the command
  does not complete and no later command is taken. -/
  | hashUnitSilent
deriving DecidableEq, Repr

/-- Why the model gives no meaning. -/
inductive Refusal where
  /-- Raised by `exec` for an instruction without a meaning; no arm of it does. Safe. -/
  | notModelled (mnemonic : String)
  /-- Raised by the host event `overlap` (U13: the model has no meaning for overlapping commands). Safe. -/
  | overlappingCommands
deriving DecidableEq, Repr

/-- The outcome of a step or of a command. -/
abbrev Result := Host.Outcome State Fault Refusal

/-- A limb that nothing has written since reset (R30, R31); its stored 0 is never read (log entry 4). -/
def LimbCell.unwritten : LimbCell := ⟨0, false⟩

/-- A value register that nothing has written since reset. -/
def ValueReg.unwritten : ValueReg :=
  #v[LimbCell.unwritten, LimbCell.unwritten, LimbCell.unwritten, LimbCell.unwritten, LimbCell.unwritten]

/-- The four value registers after reset (R30). -/
def unwrittenRegs : Vector ValueReg 4 :=
  #v[ValueReg.unwritten, ValueReg.unwritten, ValueReg.unwritten, ValueReg.unwritten]

/-- The machine right after reset (R30, R190): `LEN` is 0, no limb and no byte has been written, the core is idle. -/
def State.reset : State where
  w := unwrittenRegs
  buf := []
  len := 0
  stream := []
  responses := []
  hashReqs := []
  draws := 0
  hashUnitAnswers := true

end Sys2Proof.Machine
end

