-- ==== Sys2Proof/Machine/Value.lean ====
section
/-! DEFINITION. The vocabulary of the value layer (R13): bit slices (R7), limbs (R8) and byte slices (R9). -/

namespace Sys2Proof.Machine

/-- `v[hi:lo]` of R7, `(v div 2^lo) mod 2^(hi-lo+1)`, written with the width of the slice: `width = hi - lo + 1`. -/
def bits (v : U320) (lo width : Nat) : BitVec width := BitVec.ofNat width (v.toNat / 2 ^ lo)

/-- `limb(v, i) = v[64*i+63 : 64*i]` (R8). -/
def limb (v : U320) (i : LimbIndex) : Limb := bits v (64 * i.val) 64

/-- `fromLimbs(l0, l1, l2, l3, l4)` of R8, the source's `FromLimbs` (R83). -/
def fromLimbs (l0 l1 l2 l3 l4 : Limb) : U320 :=
  BitVec.ofNat 320
    (l0.toNat + l1.toNat * 2 ^ 64 + l2.toNat * 2 ^ 128 + l3.toNat * 2 ^ 192 + l4.toNat * 2 ^ 256)

/-- `b[i:j)` of R9. -/
def slice (b : List Byte) (i j : Nat) : List Byte := (b.drop i).take (j - i)

/-- `zext_64` of a byte (R7): no command sign-extends (R45). -/
def zextByte (b : Byte) : Limb := BitVec.ofNat 64 b.toNat

/-- `zext_320` of a digit (R127). -/
def zextDigit (d : Nat) : U320 := BitVec.ofNat 320 d

end Sys2Proof.Machine
end

