-- ==== Sys2Proof/Machine/Ops.lean ====
section
/-! DEFINITION. The named operations over the buffer, the registers, the response port and the hash port: `MemRead`,
`MemWrite`, `W[r]`, `W[r].limb[k]`, `LEN`, `resp`, `raise`, `HashReq` (R10, R11). A read of a limb or a byte that
nothing has written since reset gives a free value (R31). -/

namespace Sys2Proof.Machine

/-! ### The buffer -/

/-- The canonical form of the buffer: addresses strictly rising, all of them addresses of `BUF` (R23). -/
abbrev Memory.wf (m : Memory) : Prop := m.Pairwise (fun c d => c.1 < d.1) ∧ ∀ c ∈ m, c.1 < Config.bufSize

/-- The byte last written at an address, none where nothing has been written since reset (R31). -/
def Memory.stored : Memory → Nat → Option Byte
  | [], _ => none
  | (a, b) :: m, x => if x = a then some b else Memory.stored m x

/-- Lists a byte at an address, in the canonical form. -/
def Memory.put (m : Memory) (x : Nat) (v : Byte) : Memory :=
  match m with
  | [] => [(x, v)]
  | (a, b) :: rest =>
    if x < a then (x, v) :: (a, b) :: rest
    else if x = a then (x, v) :: rest
    else (a, b) :: Memory.put rest x v

/-- `BUF[x] <- v`. `BUF` has no byte at or above address 64 (R47); no command reaches one (R44, log entry 12). -/
def Memory.write (m : Memory) (x : Nat) (v : Byte) : Memory :=
  if x < Config.bufSize then m.put x v else m

/-- `MemWrite(addr, n, b)` with `n` the length of `b`, lowest address first (R10). -/
def Memory.writeBytes (m : Memory) (addr : Nat) (b : List Byte) : Memory :=
  match b with
  | [] => m
  | v :: rest => Memory.writeBytes (m.write addr v) (addr + 1) rest

/-- What a read of the buffer gives: the byte last written, or a fresh free value where there is none (R31, R49). -/
def State.readByte (s : State) (addr : Nat) : Byte :=
  match s.buf.stored addr with
  | some b => b
  | none => Config.freeByte s.draws addr

/-- `MemRead(addr, n)` (R10). -/
def State.memRead (s : State) (addr n : Nat) : List Byte := (List.range n).map fun i => s.readByte (addr + i)

/-- `MemWrite(addr, n, b)` on the state (R10). -/
def State.memWrite (s : State) (addr : Nat) (b : List Byte) : State := { s with buf := s.buf.writeBytes addr b }

/-- `LEN <- n` (R10, R24). -/
def State.setLen (s : State) (n : BitVec 7) : State := { s with len := n }

/-! ### The value registers -/

/-- The stored limb `W[r].limb[k]` with its mark. -/
def State.cell (s : State) (r : Reg) (k : LimbIndex) : LimbCell := (s.w[r])[k]

/-- What a read of `W[r].limb[k]` for a source operand gives: the limb last written, or a fresh free value where
nothing has written it since reset (R31, R49). -/
def State.readLimb (s : State) (src : Source) (r : Reg) (k : LimbIndex) : Limb :=
  if (s.cell r k).written then (s.cell r k).value else Config.freeLimb s.draws src k

/-- What a read of `W[r]` for a source operand gives: all five limbs (R10, R20). -/
def State.readReg (s : State) (src : Source) (r : Reg) : U320 :=
  fromLimbs (s.readLimb src r 0) (s.readLimb src r 1) (s.readLimb src r 2) (s.readLimb src r 3) (s.readLimb src r 4)

/-- `W[r].limb[k] <- x`: only that limb is written (R10). -/
def State.writeLimb (s : State) (r : Reg) (k : LimbIndex) (x : Limb) : State :=
  { s with w := s.w.set r.val ((s.w[r]).set k.val ⟨x, true⟩) }

/-- The five written limbs of a value (R8). -/
def writtenReg (v : U320) : ValueReg :=
  #v[⟨limb v 0, true⟩, ⟨limb v 1, true⟩, ⟨limb v 2, true⟩, ⟨limb v 3, true⟩, ⟨limb v 4, true⟩]

/-- `W[r] <- v`: all five limbs are written (R10). -/
def State.writeReg (s : State) (r : Reg) (v : U320) : State := { s with w := s.w.set r.val (writtenReg v) }

/-! ### The response port -/

/-- Sends a response and moves to the next free draw; every command ends with exactly one response (R11). -/
def State.respond (s : State) (st : Status) (x : Limb) : State :=
  { s with responses := s.responses ++ [⟨st, x⟩], draws := s.draws + 1 }

/-- `resp(OK, x)` (R11). -/
def State.respOk (s : State) (x : Limb) : State := s.respond .ok x

/-- `raise <Status>(info)`: the command ends at once with that status; applied to the state before the command, so that
every write is discarded and nothing is latched (R11, R174, R175). -/
def State.raise (s : State) (st : Status) (info : Limb) : State := s.respond st info

/-- The answer to a word or a field value that spells no command (R66, R173). -/
def State.raiseIllegal (s : State) : State := s.raise .illegalCommand 0

/-! ### The hash port -/

/-- `HashReq(m)`: records the message and gives the digest `SHA256(m)` (R11, R145). -/
def State.hashReq (s : State) (m : List Byte) : Vector Byte 32 × State :=
  (Config.sha256 m, { s with hashReqs := s.hashReqs ++ [m] })

/-! ### Reset -/

/-- The core's reset (R30, R190): `LEN` is 0, no limb and no byte counts as written, and later draws are fresh, so that a
second reset need not reproduce a first. What has passed the ports and what the host will do next stand. -/
def State.coreReset (s : State) : State :=
  { s with w := unwrittenRegs, buf := [], len := 0, draws := s.draws + 1 }

end Sys2Proof.Machine
end

