-- ==== Sys2Proof/Machine/Operands.lean ====
section
/-! DEFINITION. The operand forms of 30_encoding.md R64: a field is an unsigned integer used as it stands; a limb index has
the legal values 0 to 4 and a length the legal values 0 to 64. -/

namespace Sys2Proof.Machine

/-- The limb a field `k` selects; 5, 6 and 7 select none and make the command illegal (R64, R66). -/
def limbIndex? (k : BitVec 3) : Option LimbIndex := if h : k.toNat < 5 then some ⟨k.toNat, h⟩ else none

/-- The length `SLEN` sets; above 64 there is none and the command is illegal (R64, R66). -/
def lengthOperand? (imm8 : Byte) : Option (BitVec 7) :=
  if imm8.toNat ≤ Config.bufSize then some (BitVec.ofNat 7 imm8.toNat) else none

/-- The buffer address a field `addr` names; all 64 values are legal (R64). -/
def bufferAddress (addr : BitVec 6) : Nat := addr.toNat

end Sys2Proof.Machine
end

