-- ==== Sys2Proof/Machine/Alu.lean ====
section
/-! DEFINITION. The 320-bit ALU: ADD, MULS (41_alu.md). Operands are read before the destination is written (R22). -/

namespace Sys2Proof.Machine

/-- `add320(x, y) = (x + y) mod 2^320` (R90). -/
def add320 (x y : U320) : U320 := BitVec.ofNat 320 (x.toNat + y.toNat)

/-- `muls320(x, s) = (x * s) mod 2^320` (R93). -/
def muls320 (x : U320) (s : Limb) : U320 := BitVec.ofNat 320 (x.toNat * s.toNat)

/-- `ADD rd, ra, rb` (R92). -/
def execAdd (rd ra rb : Reg) (s : State) : Result :=
  let x := s.readReg .a ra
  let y := s.readReg .b rb
  .next ((s.writeReg rd (add320 x y)).respOk 0)

/-- `MULS rd, ra` (R96). -/
def execMuls (rd ra : Reg) (wdata : Limb) (s : State) : Result :=
  let x := s.readReg .a ra
  .next ((s.writeReg rd (muls320 x wdata)).respOk 0)

end Sys2Proof.Machine
end

