-- ==== Sys2Proof/Machine/Base58.lean ====
section
/-! DEFINITION. The Base58 codec: ENCODE, DECODE (43_base58.md). -/

namespace Sys2Proof.Machine

/-- The alphabet as bytes, digit 0 first (R120, R122). -/
def alphabet : List Byte :=
  [0x31, 0x32, 0x33, 0x34, 0x35, 0x36, 0x37, 0x38, 0x39]
    ++ [0x41, 0x42, 0x43, 0x44, 0x45, 0x46, 0x47, 0x48]
    ++ [0x4A, 0x4B, 0x4C, 0x4D, 0x4E]
    ++ [0x50, 0x51, 0x52, 0x53, 0x54, 0x55, 0x56, 0x57, 0x58, 0x59, 0x5A]
    ++ [0x61, 0x62, 0x63, 0x64, 0x65, 0x66, 0x67, 0x68, 0x69, 0x6A, 0x6B]
    ++ [0x6D, 0x6E, 0x6F, 0x70, 0x71, 0x72, 0x73, 0x74, 0x75, 0x76, 0x77, 0x78, 0x79, 0x7A]

/-- `ALPHABET[d]` for a digit `d` in 0..57 (R120). -/
def alphabetByte (d : Nat) : Byte := alphabet.getD d 0

/-- The position of a byte in a list of bytes, counted from `at0`. -/
def positionFrom (c : Byte) (l : List Byte) (at0 : Nat) : Option Nat :=
  match l with
  | [] => none
  | b :: rest => if c = b then some at0 else positionFrom c rest (at0 + 1)

/-- `b58index(c)`: the digit of an alphabet byte, by exact byte match; none for every other byte (R121). -/
def b58index (c : Byte) : Option Nat := positionFrom c alphabet 0

/-- The loop of R123 on the value still to be written and the characters written so far, at most `fuel` digits. -/
def encodeLoop (fuel : Nat) (v : Nat) (out : List Byte) : List Byte :=
  match fuel with
  | 0 => out
  | n + 1 => if v = 0 then out else encodeLoop n (v / Config.radix) (alphabetByte (v % Config.radix) :: out)

/-- `b58enc(v)`: the Base58 digits, most significant first, no leading zero digit, empty for 0 (R123). 55 digits are enough
for every value (R125). -/
def b58enc (v : U320) : List Byte := encodeLoop Config.maxDigits v.toNat []

/-- The result of `b58dec` (R127). -/
inductive DecodeResult where
  | ok (v : U320)
  | invalidLength
  | invalidCharacter (c : Byte)
deriving DecidableEq, Repr

/-- The loop of R127 from left to right; it stops at the first byte that is no digit. -/
def decodeLoop (s : List Byte) (acc : U320) : DecodeResult :=
  match s with
  | [] => .ok acc
  | c :: rest =>
    match b58index c with
    | none => .invalidCharacter c
    | some d => decodeLoop rest (add320 (muls320 acc (BitVec.ofNat 64 Config.radix)) (zextDigit d))

/-- `b58dec(s)`: the length is tested before any character is looked at (R127, R172). -/
def b58dec (s : List Byte) : DecodeResult :=
  if s.length ≠ Config.keyLen then .invalidLength else decodeLoop s 0

/-- `ENCODE ra` (R126): `BUF[0..n-1]` and `LEN` are written, nothing else. -/
def execEncode (ra : Reg) (s : State) : Result :=
  let str := b58enc (s.readReg .a ra)
  .next (((s.memWrite 0 str).setLen (BitVec.ofNat 7 str.length)).respOk (BitVec.ofNat 64 str.length))

/-- `DECODE rd` (R128): `W[rd]` is written on success only; on an error nothing is. -/
def execDecode (rd : Reg) (s : State) : Result :=
  .next <|
    match b58dec (s.memRead 0 s.len.toNat) with
    | .ok v => (s.writeReg rd v).respOk 0
    | .invalidLength => s.raise .invalidLength 0
    | .invalidCharacter c => s.raise .invalidCharacter (zextByte c)

end Sys2Proof.Machine
end

