-- ==== Sys2Proof/Machine/Buffer.lean ====
section
/-! DEFINITION. The buffer and length commands SB, LB, SLEN, GLEN (45_buffer.md). -/

namespace Sys2Proof.Machine

/-- `SB addr, imm8` (R160): one byte of `BUF`, `LEN` is not changed. -/
def execSb (addr : BitVec 6) (imm8 : Byte) (s : State) : Result :=
  .next ((s.memWrite (bufferAddress addr) [imm8]).respOk 0)

/-- `LB addr` (R161): zero-extended. -/
def execLb (addr : BitVec 6) (s : State) : Result :=
  .next (s.respOk (zextByte (s.readByte (bufferAddress addr))))

/-- `SLEN imm8` (R162). -/
def execSlen (imm8 : Byte) (s : State) : Result :=
  match lengthOperand? imm8 with
  | some n => .next ((s.setLen n).respOk 0)
  | none => .next s.raiseIllegal

/-- `GLEN` (R163). -/
def execGlen (s : State) : Result :=
  .next (s.respOk (BitVec.ofNat 64 s.len.toNat))

end Sys2Proof.Machine
end

