-- ==== Sys2Proof/Machine/Limbs.lean ====
section
/-! DEFINITION. The limb access commands LDZ, LDL, RDL (40_limbs.md). -/

namespace Sys2Proof.Machine

/-- `LDZ rd` (R80): all five limbs are written, limbs 1 to 4 with zero. -/
def execLdz (rd : Reg) (wdata : Limb) (s : State) : Result :=
  .next ((s.writeReg rd (fromLimbs wdata 0 0 0 0)).respOk 0)

/-- `LDL rd, k` (R81): one limb is written; the other four are neither read nor written. -/
def execLdl (rd : Reg) (k : BitVec 3) (wdata : Limb) (s : State) : Result :=
  match limbIndex? k with
  | some i => .next ((s.writeLimb rd i wdata).respOk 0)
  | none => .next s.raiseIllegal

/-- `RDL ra, k` (R82). -/
def execRdl (ra : Reg) (k : BitVec 3) (s : State) : Result :=
  match limbIndex? k with
  | some i => .next (s.respOk (s.readLimb .a ra i))
  | none => .next s.raiseIllegal

end Sys2Proof.Machine
end

