-- ==== Sys2Proof/Machine/Serializer.lean ====
section
/-! DEFINITION. The fixed-width serializer: TOBYTES (42_serializer.md). -/

namespace Sys2Proof.Machine

/-- Byte `j` of the serialization: `v[8*(39-j)+7 : 8*(39-j)]` (R110). -/
def serialByte (v : U320) (j : Nat) : Byte := bits v (8 * (39 - j)) 8

/-- `tobytes40(v)`, most significant byte first (R110). -/
def tobytes40 (v : U320) : Vector Byte 40 :=
  ⟨((List.range 40).map (serialByte v)).toArray, by simp⟩

/-- `TOBYTES ra` (R112): `BUF[0..39]` and `LEN` are written, nothing else. -/
def execTobytes (ra : Reg) (s : State) : Result :=
  let b := tobytes40 (s.readReg .a ra)
  .next (((s.memWrite 0 b.toList).setLen (BitVec.ofNat 7 Config.nBytes)).respOk (BitVec.ofNat 64 Config.nBytes))

end Sys2Proof.Machine
end

