-- ==== Sys2Proof/Machine/Flags.lean ====
section
/-! DEFINITION. The core has no flags and no condition codes (10_state.md R25): there is no flag computation. What a command
reports is its response; here are the numbers of the statuses and of a Boolean verdict (R61, R170). -/

namespace Sys2Proof.Machine

/-- The 4-bit `STATUS` of a response (R61, R170). -/
def Status.code : Status → BitVec 4
  | .ok => 0
  | .invalidLength => 1
  | .invalidCharacter => 2
  | .illegalCommand => 3

/-- A Boolean result as `RDATA`: 1 for true, 0 for false (R61). -/
def boolDatum (b : Bool) : Limb := if b then 1 else 0

end Sys2Proof.Machine
end

