-- ==== Sys2Proof/Machine/Validator.lean ====
section
/-! DEFINITION. The validator: FCHK, VALID (44_validator.md). -/

namespace Sys2Proof.Machine

/-- `fastcheck(v)`: limb 0 masked by the flag's mask is the flag's value (R140). -/
def fastcheck (v : U320) : Bool := limb v 0 &&& Config.flagMask == Config.flagValue

/-- `payload(v) = b[2:36)`, 34 bytes (R143). -/
def payload (v : U320) : List Byte := slice (tobytes40 v).toList 2 36

/-- `claimed(v) = b[36:40)`, 4 bytes (R143). -/
def claimed (v : U320) : List Byte := slice (tobytes40 v).toList 36 40

/-- The four comparisons of a digest with the claimed checksum (R144). -/
def checksumMatches (d : Vector Byte 32) (b : Vector Byte 40) : Bool :=
  d[0] == b[36] && d[1] == b[37] && d[2] == b[38] && d[3] == b[39]

/-- `isvalid(v)` (R144). -/
def isvalid (v : U320) : Bool :=
  if fastcheck v then checksumMatches (Config.sha256 (Config.sha256 (payload v)).toList) (tobytes40 v) else false

/-- The hash requests of `VALID` on a value, in order: none when stage 1 fails, two when it passes (R146). -/
def validMessages (v : U320) : List (List Byte) :=
  if fastcheck v then [payload v, (Config.sha256 (payload v)).toList] else []

/-- Stage 2 of `VALID` with its two hash requests (R146). -/
def checksumStage (v : U320) (s : State) : State :=
  let b := tobytes40 v
  let r1 := s.hashReq (slice b.toList 2 36)
  let r2 := r1.2.hashReq r1.1.toList
  r2.2.respOk (boolDatum (checksumMatches r2.1 b))

/-- `FCHK ra` (R142). -/
def execFchk (ra : Reg) (s : State) : Result :=
  .next (s.respOk (boolDatum (fastcheck (s.readReg .a ra))))

/-- `VALID ra` (R146): stage 2 is reached only when stage 1 passes. A hash unit that never answers leaves the command
unfinished (R145, U5, log entry 8). -/
def execValid (ra : Reg) (s : State) : Result :=
  let v := s.readReg .a ra
  match s.hashUnitAnswers with
  | true => .next (if fastcheck v then checksumStage v s else s.respOk 0)
  | false => if fastcheck v then .fault .hashUnitSilent else .next (s.respOk 0)

end Sys2Proof.Machine
end

