-- ==== Sys2Proof/Machine/Dispatch.lean ====
section
/-! DEFINITION. One arm per command: its meaning. -/

namespace Sys2Proof.Machine

def exec (i : Instr) (s : State) : Host.Outcome State Fault Refusal :=
  match i with
  | .ldz rd wdata => Sys2Proof.Machine.execLdz rd wdata s
  | .ldl rd k wdata => Sys2Proof.Machine.execLdl rd k wdata s
  | .rdl ra k => Sys2Proof.Machine.execRdl ra k s
  | .add rd ra rb => Sys2Proof.Machine.execAdd rd ra rb s
  | .muls rd ra wdata => Sys2Proof.Machine.execMuls rd ra wdata s
  | .tobytes ra => Sys2Proof.Machine.execTobytes ra s
  | .decode rd => Sys2Proof.Machine.execDecode rd s
  | .encode ra => Sys2Proof.Machine.execEncode ra s
  | .fchk ra => Sys2Proof.Machine.execFchk ra s
  | .valid ra => Sys2Proof.Machine.execValid ra s
  | .sb addr imm8 => Sys2Proof.Machine.execSb addr imm8 s
  | .lb addr => Sys2Proof.Machine.execLb addr s
  | .slen imm8 => Sys2Proof.Machine.execSlen imm8 s
  | .glen => Sys2Proof.Machine.execGlen s

end Sys2Proof.Machine
end

