-- ==== Sys2Proof/Machine/Events.lean ====
section
/-! DEFINITION. What the core does with what the host does (70_reset_and_hazards.md R190, R192, R193). -/

namespace Sys2Proof.Machine

/-- Takes a command: the command the decoder reads, or the answer to an illegal word (R66, R193). -/
def runCommand (c : Command) (s : State) : Result :=
  match decode c.cmd c.wdata with
  | .legal i => exec i s
  | .illegal _ => .next s.raiseIllegal

/-- The hash requests a command makes in a state: only `VALID` makes any (R146). A silent hash unit never gets past the
first (R53, R145). -/
def commandMessages (c : Command) (s : State) : List (List Byte) :=
  match decode c.cmd c.wdata with
  | .legal (.valid ra) =>
    if s.hashUnitAnswers then validMessages (s.readReg .a ra) else (validMessages (s.readReg .a ra)).take 1
  | .legal (.ldz _ _) | .legal (.ldl _ _ _) | .legal (.rdl _ _) | .legal (.add _ _ _) | .legal (.muls _ _ _)
  | .legal (.tobytes _) | .legal (.decode _) | .legal (.encode _) | .legal (.fchk _) | .legal (.sb _ _)
  | .legal (.lb _) | .legal (.slen _) | .legal .glen | .illegal _ => []

/-- Reset while a command is in progress (R190, U15): no response, the reset state; of the command's hash requests some
number, a free value, had been sent (log entry 9). -/
def abandonCommand (c : Command) (s : State) : State :=
  { s with hashReqs := s.hashReqs ++ (commandMessages c s).take (Config.freeCount s.draws) }.coreReset

/-- One host event. -/
def runEvent (e : HostEvent) (s : State) : Result :=
  match e with
  | .command c => runCommand c s
  | .reset => .next s.coreReset
  | .resetDuring c => .next (abandonCommand c s)
  | .overlap _ _ => .refused .overlappingCommands

/-- Takes the next host event off the stream; with none pending the core stays idle (R180, R190). -/
def takeEvent (s : State) : Result :=
  match s.stream with
  | [] => .next s
  | e :: rest => runEvent e { s with stream := rest }

/-- The host's stream with one more command in front. -/
def presentCommand (c : Command) (s : State) : State := { s with stream := .command c :: s.stream }

end Sys2Proof.Machine
end

