-- ==== Sys2Proof/Machine/Step.lean ====
section
/-! DEFINITION. One step: the next host event, to completion (70_reset_and_hazards.md R193). -/

namespace Sys2Proof.Machine

/-- One step of the machine: one host event, or nothing while the host does nothing. -/
def step (s : State) : Host.Outcome State Fault Refusal := takeEvent s

/-- The state with the instruction of the opcode table's bits `w` as the next command of the host. -/
def State.withFetchWord (s : State) (nbits w : Nat) : State := presentCommand (tableCommand nbits w) s

end Sys2Proof.Machine
end

