-- ==== Sys2Proof/Machine/Assembler.lean ====
section
/-! DEFINITION. The assembler's notation: the pseudo-instructions of 30_encoding.md R70 with their expansions, and the lines
of R69. -/

namespace Sys2Proof.Machine

/-- The pseudo-instructions of R70. -/
inductive Pseudo where
  /-- `CLR rd`. -/
  | clr (rd : Reg)
  /-- `LDW rd, [l0, l1, l2, l3, l4]`, the source's `FromLimbs` (R83). -/
  | ldw (rd : Reg) (l0 l1 l2 l3 l4 : Limb)
  /-- `ADDI rd, rb`, the source's `AddInPlace`. -/
  | addi (rd rb : Reg)
  /-- `STR "c0 c1 ... c(n-1)"`, legal for at most 64 characters. -/
  | str (chars : List Byte)
deriving DecidableEq, Repr

/-- `SB addr, c` for each character from address `addr` on. -/
def storeChars (addr : Nat) (chars : List Byte) : List Instr :=
  match chars with
  | [] => []
  | c :: rest => .sb (BitVec.ofNat 6 addr) c :: storeChars (addr + 1) rest

/-- The commands a pseudo-instruction stands for, in order (R70); none for a string longer than `BUF`. -/
def expand (p : Pseudo) : Option (List Instr) :=
  match p with
  | .clr rd => some [.ldz rd 0]
  | .ldw rd l0 l1 l2 l3 l4 => some [.ldz rd l0, .ldl rd 1 l1, .ldl rd 2 l2, .ldl rd 3 l3, .ldl rd 4 l4]
  | .addi rd rb => some [.add rd rd rb]
  | .str chars =>
    if chars.length ≤ Config.bufSize then some (storeChars 0 chars ++ [.slen (BitVec.ofNat 8 chars.length)]) else none

/-- Commands one after the other (R49, R193). -/
def execAll (l : List Instr) (s : State) : Result :=
  match l with
  | [] => .next s
  | i :: rest =>
    match exec i s with
    | .next t => execAll rest t
    | .fault f => .fault f
    | .refused r => .refused r

/-- A register in an assembler line (R69). -/
def regText (r : Reg) : String := "W" ++ toString r.val

/-- A `WDATA` operand in an assembler line, written last, after `#` (R69). -/
def wdataText (x : Limb) : String := "#" ++ toString x.toNat

/-- The assembler line of a command: mnemonic, then destination, sources and `WDATA`, separated by commas, numbers in
decimal (R69). -/
def asmLine (i : Instr) : String :=
  match i with
  | .ldz rd x => "LDZ " ++ regText rd ++ ", " ++ wdataText x
  | .ldl rd k x => "LDL " ++ regText rd ++ ", " ++ toString k.toNat ++ ", " ++ wdataText x
  | .rdl ra k => "RDL " ++ regText ra ++ ", " ++ toString k.toNat
  | .add rd ra rb => "ADD " ++ regText rd ++ ", " ++ regText ra ++ ", " ++ regText rb
  | .muls rd ra x => "MULS " ++ regText rd ++ ", " ++ regText ra ++ ", " ++ wdataText x
  | .tobytes ra => "TOBYTES " ++ regText ra
  | .decode rd => "DECODE " ++ regText rd
  | .encode ra => "ENCODE " ++ regText ra
  | .fchk ra => "FCHK " ++ regText ra
  | .valid ra => "VALID " ++ regText ra
  | .sb addr imm8 => "SB " ++ toString addr.toNat ++ ", " ++ toString imm8.toNat
  | .lb addr => "LB " ++ toString addr.toNat
  | .slen imm8 => "SLEN " ++ toString imm8.toNat
  | .glen => "GLEN"

end Sys2Proof.Machine
end

