-- ==== Sys2Proof/Machine/Datapath.lean ====
section
/-! DEFINITION. The limb-by-limb datapaths the spec gives beside the definitions by result: the ripple-carry adder (R90),
the two carry chains of the multiplier (R94) and the division by 58 (R124). No command's meaning uses them: only the
results are architectural (R94, R124, U10). -/

namespace Sys2Proof.Machine

/-- One step of R90: the result limb and the carry out. -/
def addStep (a b : Limb) (c : Nat) : Limb × Nat :=
  let t := a.toNat + b.toNat + c
  (BitVec.ofNat 64 t, t / 2 ^ 64)

/-- The loop of R90: the result and the carry that is dropped. -/
def rippleAdd (x y : U320) : U320 × Nat :=
  let p0 := addStep (limb x 0) (limb y 0) 0
  let p1 := addStep (limb x 1) (limb y 1) p0.2
  let p2 := addStep (limb x 2) (limb y 2) p1.2
  let p3 := addStep (limb x 3) (limb y 3) p2.2
  let p4 := addStep (limb x 4) (limb y 4) p3.2
  (fromLimbs p0.1 p1.1 p2.1 p3.1 p4.1, p4.2)

/-- One step of R94: the result limb and the carry out, `hi` plus the one-bit carry of the low half. -/
def mulStep (a s : Limb) (carry : Nat) : Limb × Nat :=
  let p := a.toNat * s.toNat
  let t := p % 2 ^ 64 + carry
  (BitVec.ofNat 64 t, p / 2 ^ 64 + t / 2 ^ 64)

/-- The loop of R94: the result and the list of the five carries out, the last of which is dropped. -/
def mulChain (x : U320) (s : Limb) : U320 × List Nat :=
  let p0 := mulStep (limb x 0) s 0
  let p1 := mulStep (limb x 1) s p0.2
  let p2 := mulStep (limb x 2) s p1.2
  let p3 := mulStep (limb x 3) s p2.2
  let p4 := mulStep (limb x 4) s p3.2
  (fromLimbs p0.1 p1.1 p2.1 p3.1 p4.1, [p0.2, p1.2, p2.2, p3.2, p4.2])

/-- One step of the second chain of R94: the sum of a low half, the high half before it and the one-bit carry. -/
def lateStep (lo hiBefore k : Nat) : Limb × Nat :=
  let t := lo + hiBefore + k
  (BitVec.ofNat 64 t, t / 2 ^ 64)

/-- The second chain of R94: all five products first, then the sums. -/
def mulChainLate (x : U320) (s : Limb) : U320 :=
  let lo (i : LimbIndex) : Nat := (limb x i).toNat * s.toNat % 2 ^ 64
  let hi (i : LimbIndex) : Nat := (limb x i).toNat * s.toNat / 2 ^ 64
  let p1 := lateStep (lo 1) (hi 0) 0
  let p2 := lateStep (lo 2) (hi 1) p1.2
  let p3 := lateStep (lo 3) (hi 2) p2.2
  let p4 := lateStep (lo 4) (hi 3) p3.2
  fromLimbs (BitVec.ofNat 64 (lo 0)) p1.1 p2.1 p3.1 p4.1

/-- One step of R124: a quotient limb and the remainder so far. -/
def divStep (l : Limb) (rem : Nat) : Limb × Nat :=
  let cur := rem * 2 ^ 64 + l.toNat
  (BitVec.ofNat 64 (cur / 58), cur % 58)

/-- The loop of R124 from limb 4 to limb 0: quotient and remainder. -/
def divChain (v : U320) : U320 × Nat :=
  let p4 := divStep (limb v 4) 0
  let p3 := divStep (limb v 3) p4.2
  let p2 := divStep (limb v 2) p3.2
  let p1 := divStep (limb v 1) p2.2
  let p0 := divStep (limb v 0) p1.2
  (fromLimbs p0.1 p1.1 p2.1 p3.1 p4.1, p0.2)

end Sys2Proof.Machine
end

