-- ==== Sys2Proof/Safety.lean ====
section
/-! DEFINITION. The words the statements use: the invariant of the state, what a register holds, what a command leaves
unchanged and what it reports. -/

namespace Sys2Proof.Machine

/-- The invariant: the buffer is in its canonical form inside `BUF` (R23, R47) and `LEN` is at most 64 (R24). -/
abbrev State.Inv (s : State) : Prop := s.buf.wf ∧ s.len.toNat ≤ 64

/-- `W[r]` holds `v`: every limb is written and has the limb of `v` (R8, R20). -/
abbrev State.Holds (s : State) (r : Reg) (v : U320) : Prop := ∀ k : LimbIndex, s.cell r k = ⟨limb v k, true⟩

/-- The bytes at `addr` and after are `b`. -/
abbrev State.HoldsBytes (s : State) (addr : Nat) (b : List Byte) : Prop :=
  ∀ (i : Nat) (h : i < b.length), s.buf.stored (addr + i) = some b[i]

/-- Every limb of every register and every byte of `BUF` has been written since reset (R31). -/
abbrev State.AllWritten (s : State) : Prop :=
  (∀ (r : Reg) (k : LimbIndex), (s.cell r k).written = true) ∧ ∀ a < 64, (s.buf.stored a).isSome = true

/-- Every register but `r` is unchanged. -/
abbrev SameOtherRegs (r : Reg) (s t : State) : Prop := ∀ q : Reg, q ≠ r → t.w[q] = s.w[q]

/-- Every byte of `BUF` at an address outside `[lo, hi)` is unchanged. -/
abbrev SameBytesOutside (lo hi : Nat) (s t : State) : Prop :=
  ∀ a : Nat, (a < lo ∨ hi ≤ a) → t.buf.stored a = s.buf.stored a

/-- Every byte of `BUF` is unchanged. -/
abbrev SameBytes (s t : State) : Prop := ∀ a : Nat, t.buf.stored a = s.buf.stored a

/-- `W`, `BUF` and `LEN` are unchanged. -/
abbrev SameCore (s t : State) : Prop := t.w = s.w ∧ SameBytes s t ∧ t.len = s.len

/-- The command made no hash request. -/
abbrev NoRequest (s t : State) : Prop := t.hashReqs = s.hashReqs

/-- The command sent exactly the response `(st, x)`, and what the host will do and the hash unit stand as they were. -/
abbrev Reported (s t : State) (st : Status) (x : Limb) : Prop :=
  t.responses = s.responses ++ [⟨st, x⟩] ∧ t.stream = s.stream ∧ t.hashUnitAnswers = s.hashUnitAnswers

/-- The command answered `IllegalCommand` and did nothing else (R66, R173). -/
abbrev AnsweredIllegal (s t : State) : Prop := SameCore s t ∧ NoRequest s t ∧ Reported s t .illegalCommand 0

/-- Two states differ at most in what has passed the ports and in what the host will do. -/
abbrev SameButLedgers (s t : State) : Prop :=
  t.w = s.w ∧ t.buf = s.buf ∧ t.len = s.len ∧ t.draws = s.draws ∧ t.hashUnitAnswers = s.hashUnitAnswers

/-- The destination register of a command (R20: written by `LDZ`, `LDL`, `ADD`, `MULS` and `DECODE`). -/
def destination : Instr → Option Reg
  | .ldz rd _ | .ldl rd _ _ | .add rd _ _ | .muls rd _ _ | .decode rd => some rd
  | .rdl _ _ | .tobytes _ | .encode _ | .fchk _ | .valid _ | .sb _ _ | .lb _ | .slen _ | .glen => none

/-- The source registers of the two commands that have both a destination and a source register (R92, R96). -/
def arithSources : Instr → List Reg
  | .add _ ra rb => [ra, rb]
  | .muls _ ra _ => [ra]
  | .ldz _ _ | .ldl _ _ _ | .rdl _ _ | .tobytes _ | .decode _ | .encode _ | .fchk _ | .valid _ | .sb _ _ | .lb _
  | .slen _ | .glen => []

/-- The addresses a command stores to, first address and number of bytes (R23: written by `SB`, `TOBYTES`, `ENCODE`). -/
def storedRange (s : State) : Instr → Nat × Nat
  | .sb addr _ => (addr.toNat, 1)
  | .tobytes _ => (0, 40)
  | .encode ra => (0, (b58enc (s.readReg .a ra)).length)
  | .ldz _ _ | .ldl _ _ _ | .rdl _ _ | .add _ _ _ | .muls _ _ _ | .decode _ | .fchk _ | .valid _ | .lb _ | .slen _
  | .glen => (0, 0)

/-- Whether a command may write `LEN` (R24: `SLEN`, `TOBYTES`, `ENCODE`). -/
def setsLen : Instr → Bool
  | .slen _ | .tobytes _ | .encode _ => true
  | .ldz _ _ | .ldl _ _ _ | .rdl _ _ | .add _ _ _ | .muls _ _ _ | .decode _ | .fchk _ | .valid _ | .sb _ _ | .lb _
  | .glen => false

/-- The digits of a string, in order; none when a byte is not in the alphabet (R121). -/
def digitsOf : List Byte → Option (List Nat)
  | [] => some []
  | c :: rest =>
    match b58index c, digitsOf rest with
    | some d, some ds => some (d :: ds)
    | _, _ => none

/-- The number a list of digits spells, most significant digit first (R123, R130). -/
def numberOf (digits : List Nat) : Nat := digits.foldl (fun n d => n * 58 + d) 0

/-- `pad52` of R129: the string padded on the left with `'1'` to 52 characters. -/
def pad52 (b : List Byte) : List Byte := List.replicate (52 - b.length) 0x31 ++ b

/-- A string without its leading `'1'` characters (R129). -/
def dropOnes (b : List Byte) : List Byte := b.dropWhile (fun c => c == 0x31)

end Sys2Proof.Machine
end

