-- ==== Sys2Proof/Certificates/Slice0/Obligations.lean ====
section
/-! DEFINITION. The statements about the core, from the numbered rules of spec/. Each docstring names the rule. -/

open Sys2Proof Sys2Proof.Machine

/-! ### Encoding (30_encoding.md) -/

/-- R62, R65, R66: the decoder reads back every well-formed command from its encoding. -/
def Obligations.EncodeThenDecodeGivesTheCommand : Prop :=
  ∀ i : Instr, WellFormed i → decode (encode i).cmd (encode i).wdata = .legal i

/-- R66: a word the decoder accepts is the encoding of the well-formed command it gives, and `WDATA` is that command's
operand where it uses one. -/
def Obligations.ALegalWordIsTheEncodingOfItsCommand : Prop :=
  ∀ (cmd : BitVec 32) (wdata : Limb) (i : Instr), decode cmd wdata = .legal i →
    WellFormed i ∧ (encode i).cmd = cmd ∧ (i.opcode.usesWdata = true → (encode i).wdata = wdata)

/-- R65: the rows of the opcode map are disjoint. -/
def Obligations.TheRowsAreDisjoint : Prop :=
  ∀ (cmd : BitVec 32) (op op' : Opcode),
    op.row.selects cmd = true → op'.row.selects cmd = true → op = op'

/-- 95_test_vectors.md section 2.5: words the spec writes out, and what they spell. -/
def Obligations.TheWordsOfTheSpecDecode : Prop :=
  decode 0x01800000 0x3A = .legal (.ldz 2 0x3A) ∧
  decode 0x02420000 0x80B566F686F7 = .legal (.ldl 1 4 0x80B566F686F7) ∧
  decode 0x03320000 0 = .legal (.rdl 3 4) ∧
  decode 0x10E40000 0 = .legal (.add 3 2 1) ∧
  decode 0x11B00000 0x9E3779B97F4A7C15 = .legal (.muls 2 3 0x9E3779B97F4A7C15) ∧
  decode 0x20100000 0 = .legal (.tobytes 1) ∧
  decode 0x30400000 0 = .legal (.decode 1) ∧
  decode 0x41300000 0 = .legal (.valid 3) ∧
  decode 0x50003FFF 0 = .legal (.sb 63 0xFF) ∧
  decode 0x52000040 0 = .legal (.slen 64) ∧
  decode 0x52000041 0 = .illegal .length ∧
  decode 0x03038000 0 = .illegal .limbIndex ∧
  decode 0x20004000 0 = .illegal .noRow

/-- R66, the four steps: a word is illegal exactly when no row selects it, or it is `LDL` or `RDL` with a limb index above
4, or `SLEN` with a length above 64; otherwise it is its row's command with the field values of R62; an illegal word does
nothing but answer. -/
def Obligations.TheDecoderFollowsItsFourSteps : Prop :=
  ∀ (cmd : BitVec 32) (wdata : Limb),
    ((∃ why, decode cmd wdata = .illegal why) ↔
      ((∀ op : Opcode, op.row.selects cmd = false) ∨
       ((Opcode.LDL.row.selects cmd = true ∨ Opcode.RDL.row.selects cmd = true) ∧ 4 < (field cmd 15 3).toNat) ∨
       (Opcode.SLEN.row.selects cmd = true ∧ 64 < (field cmd 0 8).toNat))) ∧
    (∀ op : Opcode, op.row.selects cmd = true → (∀ why, decode cmd wdata ≠ .illegal why) →
      decode cmd wdata = .legal (buildInstr op cmd wdata)) ∧
    ∀ s : State, (∃ why, decode cmd wdata = .illegal why) →
      ∃ t, runCommand ⟨cmd, wdata⟩ s = .next t ∧ AnsweredIllegal s t

/-- R67: the count of legal words. -/
def Obligations.ThereAre16658LegalWords : Prop :=
  Nat.card { cmd : BitVec 32 // ∃ i, decode cmd 0 = .legal i } = 16658

/-- R60: only `LDZ`, `LDL` and `MULS` use `WDATA`; for every other word its value changes neither the new state nor the
response nor the hash requests. -/
def Obligations.UnusedWdataHasNoEffect : Prop :=
  ∀ (cmd : BitVec 32) (x y : Limb) (s : State),
    Opcode.LDZ.row.selects cmd = false → Opcode.LDL.row.selects cmd = false → Opcode.MULS.row.selects cmd = false →
    runCommand ⟨cmd, x⟩ s = runCommand ⟨cmd, y⟩ s

/-- R173: an illegal word does nothing but answer `(IllegalCommand, 0)`, and the core goes on. -/
def Obligations.AnIllegalWordOnlyAnswers : Prop :=
  ∀ (c : Command) (s : State), (∃ why, decode c.cmd c.wdata = .illegal why) →
    ∃ t, runCommand c s = .next t ∧ AnsweredIllegal s t

/-! ### Limb access (40_limbs.md) -/

/-- R8: limbs and values determine each other. -/
def Obligations.LimbsAndValuesDetermineEachOther : Prop :=
  (∀ l0 l1 l2 l3 l4 : Limb,
    limb (fromLimbs l0 l1 l2 l3 l4) 0 = l0 ∧ limb (fromLimbs l0 l1 l2 l3 l4) 1 = l1 ∧
    limb (fromLimbs l0 l1 l2 l3 l4) 2 = l2 ∧ limb (fromLimbs l0 l1 l2 l3 l4) 3 = l3 ∧
    limb (fromLimbs l0 l1 l2 l3 l4) 4 = l4) ∧
  ∀ v : U320, fromLimbs (limb v 0) (limb v 1) (limb v 2) (limb v 3) (limb v 4) = v

/-- R10, R20: reading a register all of whose limbs are written gives the value it holds. -/
def Obligations.AReadOfAWrittenRegisterIsItsValue : Prop :=
  ∀ (s : State) (src : Source) (r : Reg) (v : U320), s.Holds r v → s.readReg src r = v

/-- R80, the whole command. -/
def Obligations.LdzLoadsAZeroExtendedLimb : Prop :=
  ∀ (rd : Reg) (x : Limb),
    decode (BitVec.ofNat 32 (0x01000000 + rd.val * 2 ^ 22)) x = .legal (.ldz rd x) ∧
    ∀ s : State, ∃ t, exec (.ldz rd x) s = .next t ∧
      t.cell rd 0 = ⟨x, true⟩ ∧ (∀ k : LimbIndex, k ≠ 0 → t.cell rd k = ⟨0, true⟩) ∧
      SameOtherRegs rd s t ∧ SameBytes s t ∧ t.len = s.len ∧ NoRequest s t ∧ Reported s t .ok 0

/-- R81, the whole command: one limb is written for `k` in 0..4, `IllegalCommand` for `k > 4`. -/
def Obligations.LdlLoadsOneLimb : Prop :=
  (∀ (rd : Reg) (i : LimbIndex) (x : Limb),
    decode (BitVec.ofNat 32 (0x02000000 + rd.val * 2 ^ 22 + i.val * 2 ^ 15)) x = .legal (.ldl rd (BitVec.ofNat 3 i.val) x) ∧
    ∀ s : State, ∃ t, exec (.ldl rd (BitVec.ofNat 3 i.val) x) s = .next t ∧
      t.cell rd i = ⟨x, true⟩ ∧ (∀ k : LimbIndex, k ≠ i → t.cell rd k = s.cell rd k) ∧
      SameOtherRegs rd s t ∧ SameBytes s t ∧ t.len = s.len ∧ NoRequest s t ∧ Reported s t .ok 0) ∧
  ∀ (rd : Reg) (k : BitVec 3) (x : Limb) (s : State), 4 < k.toNat →
    (∃ why, decode (BitVec.ofNat 32 (0x02000000 + rd.val * 2 ^ 22 + k.toNat * 2 ^ 15)) x = .illegal why) ∧
    ∃ t, exec (.ldl rd k x) s = .next t ∧ AnsweredIllegal s t

/-- R82, the whole command: a written limb is reported as it stands, some value for an unwritten one; `IllegalCommand`
for `k > 4`. -/
def Obligations.RdlReadsOneLimb : Prop :=
  (∀ (ra : Reg) (i : LimbIndex),
    (∀ x : Limb, decode (BitVec.ofNat 32 (0x03000000 + ra.val * 2 ^ 20 + i.val * 2 ^ 15)) x
      = .legal (.rdl ra (BitVec.ofNat 3 i.val))) ∧
    ∀ s : State, ∃ t x, exec (.rdl ra (BitVec.ofNat 3 i.val)) s = .next t ∧ Reported s t .ok x ∧
      ((s.cell ra i).written = true → x = (s.cell ra i).value) ∧ SameCore s t ∧ NoRequest s t) ∧
  ∀ (ra : Reg) (k : BitVec 3) (x : Limb) (s : State), 4 < k.toNat →
    (∃ why, decode (BitVec.ofNat 32 (0x03000000 + ra.val * 2 ^ 20 + k.toNat * 2 ^ 15)) x = .illegal why) ∧
    ∃ t, exec (.rdl ra k) s = .next t ∧ AnsweredIllegal s t

/-- R70, R83: `LDW` builds the value `FromLimbs` gives. -/
def Obligations.LdwBuildsTheValue : Prop :=
  ∀ (rd : Reg) (l0 l1 l2 l3 l4 : Limb) (s : State), ∃ is t,
    expand (.ldw rd l0 l1 l2 l3 l4) = some is ∧ execAll is s = .next t ∧
    t.Holds rd (fromLimbs l0 l1 l2 l3 l4) ∧ SameOtherRegs rd s t ∧ SameBytes s t ∧ t.len = s.len ∧
    t.responses = s.responses ++ List.replicate 5 ⟨.ok, 0⟩

/-! ### The ALU (41_alu.md) -/

/-- R90: the sum modulo `2^320`; the ripple-carry loop computes it, and the carry it drops is 0 or 1. -/
def Obligations.TheAdderAddsModulo : Prop :=
  ∀ x y : U320,
    (add320 x y).toNat = (x.toNat + y.toNat) % 2 ^ 320 ∧
    rippleAdd x y = (add320 x y, (x.toNat + y.toNat) / 2 ^ 320) ∧
    (x.toNat + y.toNat) / 2 ^ 320 ≤ 1

/-- R91: the laws of addition. -/
def Obligations.AdditionIsCommutativeAndAssociative : Prop :=
  (∀ x y : U320, add320 x y = add320 y x) ∧
  (∀ x y z : U320, add320 (add320 x y) z = add320 x (add320 y z)) ∧
  (∀ x : U320, add320 x 0 = x) ∧
  ∀ x : U320, add320 x (BitVec.ofNat 320 (2 ^ 320 - x.toNat)) = 0

/-- R92, the whole command: both sources are read before the write. -/
def Obligations.AddWritesTheWrappedSum : Prop :=
  ∀ rd ra rb : Reg,
    (∀ x : Limb, decode (BitVec.ofNat 32 (0x10000000 + rd.val * 2 ^ 22 + ra.val * 2 ^ 20 + rb.val * 2 ^ 18)) x
      = .legal (.add rd ra rb)) ∧
    ∀ s : State, ∃ t, exec (.add rd ra rb) s = .next t ∧
      t.Holds rd (BitVec.ofNat 320 ((s.readReg .a ra).toNat + (s.readReg .b rb).toNat)) ∧
      SameOtherRegs rd s t ∧ SameBytes s t ∧ t.len = s.len ∧ NoRequest s t ∧ Reported s t .ok 0

/-- R93: the product modulo `2^320`, and the size of what is dropped. -/
def Obligations.TheMultiplierMultipliesModulo : Prop :=
  ∀ (x : U320) (s : Limb),
    (muls320 x s).toNat = x.toNat * s.toNat % 2 ^ 320 ∧ x.toNat * s.toNat < 2 ^ 384 ∧
    x.toNat * s.toNat / 2 ^ 320 < 2 ^ 64

/-- R94: both carry chains give the product, no carry overflows 64 bits, and the last carry is the dropped part. -/
def Obligations.BothCarryChainsMultiply : Prop :=
  ∀ (x : U320) (s : Limb),
    (mulChain x s).1 = muls320 x s ∧ (mulChain x s).2.getLast? = some (x.toNat * s.toNat / 2 ^ 320) ∧
    (∀ c ∈ (mulChain x s).2, c < 2 ^ 64) ∧ mulChainLate x s = muls320 x s

/-- R95: the laws of multiplication. -/
def Obligations.MultiplicationDistributesOverAddition : Prop :=
  (∀ x : U320, muls320 x 0 = 0) ∧ (∀ x : U320, muls320 x 1 = x) ∧ (∀ s : Limb, muls320 0 s = 0) ∧
  (∀ (x y : U320) (s : Limb), muls320 (add320 x y) s = add320 (muls320 x s) (muls320 y s)) ∧
  (∀ (x : U320) (s t : Limb), muls320 (muls320 x s) t = muls320 (muls320 x t) s) ∧
  ∀ (x : U320) (s : Limb), x.toNat * s.toNat < 2 ^ 320 → (muls320 x s).toNat = x.toNat * s.toNat

/-- R96, the whole command: the source is read before the write. -/
def Obligations.MulsWritesTheWrappedProduct : Prop :=
  ∀ (rd ra : Reg) (x : Limb),
    decode (BitVec.ofNat 32 (0x11000000 + rd.val * 2 ^ 22 + ra.val * 2 ^ 20)) x = .legal (.muls rd ra x) ∧
    ∀ s : State, ∃ t, exec (.muls rd ra x) s = .next t ∧
      t.Holds rd (BitVec.ofNat 320 ((s.readReg .a ra).toNat * x.toNat)) ∧
      SameOtherRegs rd s t ∧ SameBytes s t ∧ t.len = s.len ∧ NoRequest s t ∧ Reported s t .ok 0

/-! ### The serializer (42_serializer.md) -/

/-- R110: the bytes are the base-256 digits of the value, most significant first, each a slice of its limb, and
serialization is a bijection. -/
def Obligations.SerializationIsBigEndian : Prop :=
  (∀ (v : U320) (j : Nat) (h : j < 40),
    ((tobytes40 v)[j]).toNat = v.toNat / 2 ^ (8 * (39 - j)) % 2 ^ 8 ∧
    ∀ i : LimbIndex, i.val = 4 - j / 8 →
      ((tobytes40 v)[j]).toNat = (limb v i).toNat / 2 ^ (56 - 8 * (j % 8)) % 2 ^ 8) ∧
  (∀ v : U320, (tobytes40 v).toList.foldl (fun n b => n * 256 + b.toNat) 0 = v.toNat) ∧
  Function.Bijective tobytes40

/-- R112, the whole command. -/
def Obligations.TobytesStoresTheSerialization : Prop :=
  ∀ ra : Reg,
    (∀ x : Limb, decode (BitVec.ofNat 32 (0x20000000 + ra.val * 2 ^ 20)) x = .legal (.tobytes ra)) ∧
    ∀ s : State, ∃ t, exec (.tobytes ra) s = .next t ∧
      t.HoldsBytes 0 (tobytes40 (s.readReg .a ra)).toList ∧ SameBytesOutside 0 40 s t ∧ t.len = 40 ∧
      t.w = s.w ∧ NoRequest s t ∧ Reported s t .ok 40

/-- R143: the hashed slice is the big-endian bytes of bits 303 to 32, the claimed checksum those of bits 31 to 0. -/
def Obligations.TheHashedSliceAndTheChecksum : Prop :=
  ∀ v : U320,
    (payload v).length = 34 ∧ (payload v).foldl (fun n b => n * 256 + b.toNat) 0 = v.toNat / 2 ^ 32 % 2 ^ 272 ∧
    (claimed v).length = 4 ∧ (claimed v).foldl (fun n b => n * 256 + b.toNat) 0 = v.toNat % 2 ^ 32

/-! ### The Base58 codec (43_base58.md) -/

/-- The digit of a byte as a function of its value. The byte codes are ASCII, which the spec supplies from general knowledge
(R122, 93_implementation_defined.md G2: not in the source) and the model takes as PRESUMED (log entry 18). -/
def Obligations.TheDigitOfAByte : Prop :=
  ∀ c : Byte,
    b58index c =
      if 0x31 ≤ c.toNat ∧ c.toNat ≤ 0x39 then some (c.toNat - 0x31)
      else if 0x41 ≤ c.toNat ∧ c.toNat ≤ 0x48 then some (c.toNat - 0x41 + 9)
      else if 0x4A ≤ c.toNat ∧ c.toNat ≤ 0x4E then some (c.toNat - 0x4A + 17)
      else if 0x50 ≤ c.toNat ∧ c.toNat ≤ 0x5A then some (c.toNat - 0x50 + 22)
      else if 0x61 ≤ c.toNat ∧ c.toNat ≤ 0x6B then some (c.toNat - 0x61 + 33)
      else if 0x6D ≤ c.toNat ∧ c.toNat ≤ 0x7A then some (c.toNat - 0x6D + 44)
      else none

/-- R121: a byte has digit `d` exactly when it is the alphabet's byte `d`; the digits are 0 to 57. -/
def Obligations.ADigitIsAPositionInTheAlphabet : Prop :=
  ∀ (c : Byte) (d : Nat), b58index c = some d ↔ d < 58 ∧ alphabet[d]? = some c

/-- R123: the output spells the value, has no leading zero digit, is empty exactly for 0, and has the least length
whose power of 58 exceeds the value. -/
def Obligations.TheEncoderSpellsTheValue : Prop :=
  ∀ v : U320, ∃ ds : List Nat,
    b58enc v = ds.map alphabetByte ∧ (∀ d ∈ ds, d < 58) ∧ numberOf ds = v.toNat ∧ ds.head? ≠ some 0 ∧
    (b58enc v = [] ↔ v = 0) ∧ ∀ n : Nat, v.toNat < 58 ^ n ↔ (b58enc v).length ≤ n

/-- R125: the length of the encoder's output. -/
def Obligations.TheLengthOfTheEncodersOutput : Prop :=
  (b58enc 0).length = 0 ∧ (∀ v : U320, 1 ≤ v.toNat → v.toNat ≤ 57 → (b58enc v).length = 1) ∧
  (b58enc 58).length = 2 ∧ 58 ^ 54 < 2 ^ 320 ∧ 2 ^ 320 ≤ 58 ^ 55 ∧
  2 ^ 316 ≤ 58 ^ 54 ∧ 58 ^ 54 < 2 ^ 317 ∧ 2 ^ 322 ≤ 58 ^ 55 ∧ 58 ^ 55 < 2 ^ 323 ∧
  (∀ v : U320, (b58enc v).length ≤ 55 ∧ ((b58enc v).length = 55 ↔ 58 ^ 54 ≤ v.toNat)) ∧
  ∀ v : U320, v.toNat < 58 ^ 52 → (b58enc v).length ≤ 52

/-- R124: the long division by 58 gives quotient and remainder. -/
def Obligations.TheDivisionDatapathDivides : Prop :=
  ∀ v : U320,
    (divChain v).1.toNat = v.toNat / 58 ∧ (divChain v).2 = v.toNat % 58 ∧
    v.toNat = 58 * (divChain v).1.toNat + (divChain v).2 ∧ (divChain v).2 < 58

/-- R126, the whole command. -/
def Obligations.EncodeWritesTheString : Prop :=
  ∀ ra : Reg,
    (∀ x : Limb, decode (BitVec.ofNat 32 (0x31000000 + ra.val * 2 ^ 20)) x = .legal (.encode ra)) ∧
    ∀ s : State, ∃ t n, exec (.encode ra) s = .next t ∧ n = (b58enc (s.readReg .a ra)).length ∧ n ≤ 55 ∧
      t.HoldsBytes 0 (b58enc (s.readReg .a ra)) ∧ SameBytesOutside 0 n s t ∧ t.len.toNat = n ∧
      t.w = s.w ∧ NoRequest s t ∧ Reported s t .ok (BitVec.ofNat 64 n)

/-- R127, R130: the decoder never wraps: it gives the number its 52 digits spell, below `58^52`. -/
def Obligations.TheDecoderGivesThePositionalValue : Prop :=
  ∀ (b : List Byte) (ds : List Nat), b.length = 52 → digitsOf b = some ds →
    ∃ v : U320, b58dec b = .ok v ∧ v.toNat = numberOf ds ∧ numberOf ds < 58 ^ 52

/-- R130: two strings with the same decoded value are the same string. -/
def Obligations.TheDecoderIsInjective : Prop :=
  ∀ (b b' : List Byte) (v : U320), b58dec b = .ok v → b58dec b' = .ok v → b = b'

/-- R128, R172, the whole command: on 52 alphabet bytes the value they spell; on another length `InvalidLength`; on a byte
that is no digit `InvalidCharacter` with the leftmost such byte; on an error nothing changes. -/
def Obligations.DecodeWritesTheValueOrReportsTheError : Prop :=
  ∀ (rd : Reg) (s : State),
    (∀ x : Limb, decode (BitVec.ofNat 32 (0x30000000 + rd.val * 2 ^ 22)) x = .legal (.decode rd)) ∧
    (∀ ds : List Nat, s.len = 52 → ds.length = 52 → (∀ i : Nat, i < 52 → b58index (s.readByte i) = ds[i]?) →
      ∃ t v, exec (.decode rd) s = .next t ∧ v.toNat = numberOf ds ∧ t.Holds rd v ∧
        SameOtherRegs rd s t ∧ SameBytes s t ∧ t.len = s.len ∧ NoRequest s t ∧ Reported s t .ok 0) ∧
    (s.len ≠ 52 →
      ∃ t, exec (.decode rd) s = .next t ∧ SameCore s t ∧ NoRequest s t ∧ Reported s t .invalidLength 0) ∧
    (∀ i : Nat, s.len = 52 → i < 52 → (∀ j < i, b58index (s.readByte j) ≠ none) → b58index (s.readByte i) = none →
      ∃ t, exec (.decode rd) s = .next t ∧ SameCore s t ∧ NoRequest s t ∧
        Reported s t .invalidCharacter (BitVec.ofNat 64 (s.readByte i).toNat))

/-- The three round trips of R129. That the padding character `'1'` is the byte 0x31 is ASCII (93_implementation_defined.md
G2), which the model takes as PRESUMED (log entry 18). -/
def Obligations.EncodeAndDecodeRoundTrip : Prop :=
  (∀ (b : List Byte) (v : U320), b58dec b = .ok v → b58enc v = dropOnes b ∧ pad52 (b58enc v) = b) ∧
  (∀ v : U320, v.toNat < 58 ^ 52 → b58dec (pad52 (b58enc v)) = .ok v) ∧
  ∀ v : U320, 58 ^ 52 ≤ v.toNat →
    53 ≤ (b58enc v).length ∧ (b58enc v).length ≤ 55 ∧ b58dec (b58enc v) = .invalidLength

/-! ### The validator (44_validator.md) -/

/-- R140: the mask test is the test of bits 39 to 32, of byte 35 of the serialization, and reads limb 0 only. -/
def Obligations.TheFastCheckIsTheFlagByte : Prop :=
  (∀ v : U320, fastcheck v = true ↔ v.toNat / 2 ^ 32 % 2 ^ 8 = 1) ∧
  (∀ v : U320, fastcheck v = true ↔ (tobytes40 v)[35] = 1) ∧
  (∀ v : U320, fastcheck v = true ↔ limb v 0 &&& 0x000000FF00000000#64 = 0x0000000100000000#64) ∧
  ∀ v v' : U320, limb v 0 = limb v' 0 → fastcheck v = fastcheck v'

/-- R142, the whole command. -/
def Obligations.FchkReportsTheFlagTest : Prop :=
  ∀ ra : Reg,
    (∀ x : Limb, decode (BitVec.ofNat 32 (0x40000000 + ra.val * 2 ^ 20)) x = .legal (.fchk ra)) ∧
    ∀ s : State, ∃ t, exec (.fchk ra) s = .next t ∧ SameCore s t ∧ NoRequest s t ∧
      Reported s t .ok (if (s.readReg .a ra).toNat / 2 ^ 32 % 2 ^ 8 = 1 then 1 else 0)

/-- R144: the predicate in one line. -/
def Obligations.ValidityIsTheFlagAndTheChecksum : Prop :=
  ∀ v : U320, isvalid v = true ↔
    v.toNat / 2 ^ 32 % 2 ^ 8 = 1 ∧ (Config.sha256 (Config.sha256 (payload v)).toList).toList.take 4 = claimed v

/-- R147: bits 319 to 304 enter neither the verdict nor the hash requests. -/
def Obligations.TheTopTwoBytesAreNotTested : Prop :=
  ∀ v v' : U320, v.toNat % 2 ^ 304 = v'.toNat % 2 ^ 304 → isvalid v = isvalid v' ∧ validMessages v = validMessages v'

/-- R146, the whole command, with the hash unit answering, as the spec assumes (R145; the field is the model's own, log
entry 8): the verdict, and no hash request when the flag test fails, the two messages in order when it passes. -/
def Obligations.ValidReportsTheVerdictAndItsRequests : Prop :=
  ∀ ra : Reg,
    (∀ x : Limb, decode (BitVec.ofNat 32 (0x41000000 + ra.val * 2 ^ 20)) x = .legal (.valid ra)) ∧
    ∀ s : State, s.hashUnitAnswers = true → ∃ t, exec (.valid ra) s = .next t ∧ SameCore s t ∧
      Reported s t .ok (if isvalid (s.readReg .a ra) = true then 1 else 0) ∧
      t.hashReqs = s.hashReqs ++
        (if (s.readReg .a ra).toNat / 2 ^ 32 % 2 ^ 8 = 1
          then [((List.range 34).map fun i => serialByte (s.readReg .a ra) (2 + i)),
            (Config.sha256 ((List.range 34).map fun i => serialByte (s.readReg .a ra) (2 + i))).toList]
          else [])

/-- R145, U5: a hash unit that never answers leaves `VALID` stuck when the flag test passes, and does not matter when it
fails. The field `hashUnitAnswers` is the model's own (log entry 8). -/
def Obligations.ASilentHashUnitStopsValidPastStageOne : Prop :=
  ∀ (ra : Reg) (s : State), s.hashUnitAnswers = false →
    (fastcheck (s.readReg .a ra) = true → exec (.valid ra) s = .fault .hashUnitSilent) ∧
    (fastcheck (s.readReg .a ra) = false →
      ∃ t, exec (.valid ra) s = .next t ∧ SameCore s t ∧ NoRequest s t ∧ Reported s t .ok 0)

/-- R148: a decoded string is a valid key exactly when `VALID` then answers 1; the hash unit answers (log entry 8). -/
def Obligations.DecodeThenValidJudgesTheKey : Prop :=
  ∀ (rd : Reg) (s : State) (ds : List Nat), s.hashUnitAnswers = true → s.len = 52 → ds.length = 52 →
    (∀ i : Nat, i < 52 → b58index (s.readByte i) = ds[i]?) →
    ∃ t, execAll [.decode rd, .valid rd] s = .next t ∧
      t.responses = s.responses ++
        [⟨.ok, 0⟩, ⟨.ok, if isvalid (BitVec.ofNat 320 (numberOf ds)) = true then 1 else 0⟩]

/-! ### The buffer and `LEN` (45_buffer.md) -/

/-- R160, the whole command. -/
def Obligations.SbStoresOneByte : Prop :=
  ∀ (addr : BitVec 6) (b : Byte),
    (∀ x : Limb, decode (BitVec.ofNat 32 (0x50000000 + addr.toNat * 2 ^ 8 + b.toNat)) x = .legal (.sb addr b)) ∧
    ∀ s : State, ∃ t, exec (.sb addr b) s = .next t ∧
      t.buf.stored addr.toNat = some b ∧ SameBytesOutside addr.toNat (addr.toNat + 1) s t ∧ t.len = s.len ∧
      t.w = s.w ∧ NoRequest s t ∧ Reported s t .ok 0

/-- R161, the whole command: a written byte is reported zero-extended, some byte for an unwritten one. -/
def Obligations.LbReadsOneByte : Prop :=
  ∀ addr : BitVec 6,
    (∀ x : Limb, decode (BitVec.ofNat 32 (0x51000000 + addr.toNat * 2 ^ 8)) x = .legal (.lb addr)) ∧
    ∀ s : State, ∃ (t : State) (b : Byte), exec (.lb addr) s = .next t ∧
      Reported s t .ok (BitVec.ofNat 64 b.toNat) ∧ (∀ c : Byte, s.buf.stored addr.toNat = some c → b = c) ∧
      SameCore s t ∧ NoRequest s t

/-- R162, the whole command: the length is set for `imm8` in 0..64, `IllegalCommand` above. -/
def Obligations.SlenSetsTheLength : Prop :=
  ∀ (imm8 : Byte) (x : Limb) (s : State),
    (imm8.toNat ≤ 64 →
      decode (BitVec.ofNat 32 (0x52000000 + imm8.toNat)) x = .legal (.slen imm8) ∧
      ∃ t, exec (.slen imm8) s = .next t ∧ t.len.toNat = imm8.toNat ∧ t.w = s.w ∧ SameBytes s t ∧
        NoRequest s t ∧ Reported s t .ok 0) ∧
    (64 < imm8.toNat →
      (∃ why, decode (BitVec.ofNat 32 (0x52000000 + imm8.toNat)) x = .illegal why) ∧
      ∃ t, exec (.slen imm8) s = .next t ∧ AnsweredIllegal s t)

/-- R163, the whole command. -/
def Obligations.GlenReadsTheLength : Prop :=
  (∀ x : Limb, decode 0x53000000 x = .legal .glen) ∧
  ∀ s : State, ∃ t, exec .glen s = .next t ∧ SameCore s t ∧ NoRequest s t ∧
    Reported s t .ok (BitVec.ofNat 64 s.len.toNat)

/-- R70: `STR` puts a string of at most 64 characters into the buffer and sets its length. -/
def Obligations.StrPresentsTheString : Prop :=
  ∀ (chars : List Byte) (s : State), chars.length ≤ 64 → ∃ is t,
    expand (.str chars) = some is ∧ execAll is s = .next t ∧ t.HoldsBytes 0 chars ∧
    SameBytesOutside 0 chars.length s t ∧ t.len.toNat = chars.length ∧ t.w = s.w ∧
    t.responses = s.responses ++ List.replicate (chars.length + 1) ⟨.ok, 0⟩

/-! ### Over all commands (10_state.md, 20_memory.md, 60_exceptions.md) -/

/-- R20, R23, R24: a command writes no register but its destination, no byte of `BUF` outside the range it stores to, and
`LEN` only if it is `SLEN`, `TOBYTES` or `ENCODE`. -/
def Obligations.ACommandWritesOnlyWhatItNames : Prop :=
  ∀ (i : Instr) (s t : State), exec i s = .next t →
    (∀ r : Reg, destination i ≠ some r → t.w[r] = s.w[r]) ∧
    SameBytesOutside (storedRange s i).1 ((storedRange s i).1 + (storedRange s i).2) s t ∧
    (setsLen i = false → t.len = s.len) ∧ t.stream = s.stream ∧ t.hashUnitAnswers = s.hashUnitAnswers

/-- R174: a command that raises changes no state, and makes no hash request. -/
def Obligations.ARaisingCommandChangesNothing : Prop :=
  ∀ (c : Command) (s t : State), runCommand c s = .next t →
    ∃ r : Response, t.responses = s.responses ++ [r] ∧ (r.status ≠ .ok → SameCore s t ∧ NoRequest s t)

/-- R171: which command raises which status, on what condition, with what datum. -/
def Obligations.WhichCommandRaisesWhat : Prop :=
  ∀ (c : Command) (s t : State) (r : Response), runCommand c s = .next t → t.responses = s.responses ++ [r] →
    (r.status = .invalidLength ↔ s.len ≠ 52 ∧ ∃ rd, decode c.cmd c.wdata = .legal (.decode rd)) ∧
    (r.status = .invalidLength → r.rdata = 0) ∧
    (r.status = .invalidCharacter ↔
      s.len = 52 ∧ (∃ i < 52, b58index (s.readByte i) = none) ∧ ∃ rd, decode c.cmd c.wdata = .legal (.decode rd)) ∧
    (r.status = .invalidCharacter → ∃ i < 52, (∀ j < i, b58index (s.readByte j) ≠ none) ∧
      b58index (s.readByte i) = none ∧ r.rdata = BitVec.ofNat 64 (s.readByte i).toNat) ∧
    (r.status = .illegalCommand ↔ ∃ why, decode c.cmd c.wdata = .illegal why) ∧
    (r.status = .illegalCommand → r.rdata = 0)

/-- R25, R29, R175: nothing is latched: what a command does depends on `W`, `BUF`, `LEN` (and on the next free draw and
the hash unit, log entries 6 and 8) alone, not on earlier responses or requests nor on what comes next. -/
def Obligations.NothingIsLatchedBetweenCommands : Prop :=
  ∀ (c : Command) (s s' t : State), SameButLedgers s s' → runCommand c s = .next t →
    ∃ t' r ms, runCommand c s' = .next t' ∧ SameButLedgers t t' ∧
      t.responses = s.responses ++ [r] ∧ t'.responses = s'.responses ++ [r] ∧
      t.hashReqs = s.hashReqs ++ ms ∧ t'.hashReqs = s'.hashReqs ++ ms

/-- R31: once every limb and byte has been written, no free value is read: another draw index gives the same next state
but for that index. The marks and the index are the model's own (log entries 4, 5, 6). -/
def Obligations.AWrittenStateUsesNoFreeValue : Prop :=
  ∀ (c : Command) (n : Nat) (s t : State), s.AllWritten → runCommand c s = .next t →
    runCommand c { s with draws := n } = .next { t with draws := n + 1 }

/-- R46: over written state (the marks are the model's own, log entries 4, 5), issuing a command twice in a row leaves
`W`, `BUF` and `LEN` as the first issue left them, except `ADD` and `MULS` with a destination that is also a source. -/
def Obligations.RepeatingACommandChangesNothingMore : Prop :=
  ∀ (i : Instr) (s t u : State), s.AllWritten → (∀ r, destination i = some r → r ∉ arithSources i) →
    exec i s = .next t → exec i t = .next u → SameCore t u

/-- R31: what has been written stays written under every command; the marks are the model's own (log entries 4, 5). -/
def Obligations.WrittenStateStaysWritten : Prop :=
  ∀ (c : Command) (s t : State), runCommand c s = .next t →
    (∀ (r : Reg) (k : LimbIndex), (s.cell r k).written = true → (t.cell r k).written = true) ∧
    ∀ a : Nat, (s.buf.stored a).isSome = true → (t.buf.stored a).isSome = true

/-! ### Reset and the host (70_reset_and_hazards.md) -/

/-- R30, R31: after reset `LEN` is 0 and no limb and no byte of `BUF` has been written; `GLEN` answers 0 and `DECODE`
answers `InvalidLength`. That unspecified state is held as unwritten is the model's choice (log entries 4, 5). -/
def Obligations.ResetLeavesLenZeroAndTheRestUnwritten : Prop :=
  State.reset.len = 0 ∧ (∀ (r : Reg) (k : LimbIndex), (State.reset.cell r k).written = false) ∧
  (∀ a : Nat, State.reset.buf.stored a = none) ∧
  (∃ t, exec .glen State.reset = .next t ∧ t.responses = [⟨.ok, 0⟩]) ∧
  ∀ rd : Reg, ∃ t, exec (.decode rd) State.reset = .next t ∧ t.responses = [⟨.invalidLength, 0⟩]

/-- R193: a step takes the next command of the host and runs the instruction the decoder reads from it, the rest of the
host's stream standing behind it. The stream is the model's own (log entry 1). -/
def Obligations.AStepRunsTheDecodedCommand : Prop :=
  ∀ (c : Command) (rest : List HostEvent) (s : State) (i : Instr),
    s.stream = .command c :: rest → decode c.cmd c.wdata = .legal i → step s = exec i { s with stream := rest }

/-- R180, R190, R192: with no event the core is idle and keeps its state; a reset leaves `LEN` 0 and `W` and `BUF` unwritten
and answers nothing; overlapping commands have no meaning (U13). The events, and that the ledgers stand over a reset, are the
model's choice (log entries 1, 2, 3, 9, 10, 11). -/
def Obligations.TheOtherEventsOfTheHost : Prop :=
  (∀ s : State, s.stream = [] → step s = .next s) ∧
  (∀ (rest : List HostEvent) (s : State), s.stream = .reset :: rest →
    ∃ t, step s = .next t ∧ t.len = 0 ∧ (∀ (r : Reg) (k : LimbIndex), (t.cell r k).written = false) ∧
      (∀ a : Nat, t.buf.stored a = none) ∧ t.responses = s.responses ∧ t.hashReqs = s.hashReqs ∧ t.stream = rest) ∧
  ∀ (c d : Command) (rest : List HostEvent) (s : State), s.stream = .overlap c d :: rest →
    step s = .refused .overlappingCommands

/-- R190, U15: a reset during a command abandons it: no response, the reset state, and of the hash requests the command
would have made some first ones at most. How many is a free value, the model's choice (log entry 9). -/
def Obligations.AResetAbandonsTheCommandInProgress : Prop :=
  ∀ (c : Command) (rest : List HostEvent) (s : State), s.stream = .resetDuring c :: rest →
    ∃ t, step s = .next t ∧ t.len = 0 ∧ (∀ (r : Reg) (k : LimbIndex), (t.cell r k).written = false) ∧
      (∀ a : Nat, t.buf.stored a = none) ∧ t.responses = s.responses ∧ t.stream = rest ∧
      ∀ u, runCommand c { s with stream := rest } = .next u → s.hashReqs <+: t.hashReqs ∧ t.hashReqs <+: u.hashReqs

/-- R24, R47: every step keeps the buffer in its canonical form inside `BUF` and `LEN` at most 64. -/
def Obligations.EveryStepKeepsTheInvariant : Prop :=
  ∀ s t : State, s.Inv → step s = .next t → t.Inv

/-- R24, R30: the reset state meets the invariant. -/
def Obligations.TheResetStateMeetsTheInvariant : Prop := State.reset.Inv

/-- R195: while the hash unit answers, `n` commands give exactly `n` responses, each command one. The host's stream and
the hash unit's field are the model's own (log entries 1, 8). -/
def Obligations.EveryCommandIsAnsweredOnce : Prop :=
  ∀ (cs : List Command) (rest : List HostEvent) (s : State), s.hashUnitAnswers = true →
    s.stream = cs.map HostEvent.command ++ rest →
    ∃ t : State, core.run cs.length s = .next t ∧ t.stream = rest ∧
      s.responses <+: t.responses ∧ t.responses.length = s.responses.length + cs.length
end

