-- ==== Sys2Proof/Laws/State.lean ====
section
/-! SUPPORT. One lemma per field of the state per named update of it, true by definition, so that no later proof unfolds
a record update. -/

namespace Sys2Proof.Machine

/-! ### One spelling for every response -/

@[simp] theorem State.respOk_eq (s : State) (x : Limb) : s.respOk x = s.respond .ok x := rfl
@[simp] theorem State.raise_eq (s : State) (st : Status) (x : Limb) : s.raise st x = s.respond st x := rfl
@[simp] theorem State.raiseIllegal_eq (s : State) : s.raiseIllegal = s.respond .illegalCommand 0 := rfl
@[simp] theorem State.hashReq_digest (s : State) (m : List Byte) : (s.hashReq m).1 = Config.sha256 m := rfl

/-! ### `memWrite` -/

@[simp] theorem State.memWrite_w (s : State) (a : Nat) (b : List Byte) : (s.memWrite a b).w = s.w := rfl
@[simp] theorem State.memWrite_buf (s : State) (a : Nat) (b : List Byte) :
    (s.memWrite a b).buf = s.buf.writeBytes a b := rfl
@[simp] theorem State.memWrite_len (s : State) (a : Nat) (b : List Byte) : (s.memWrite a b).len = s.len := rfl
@[simp] theorem State.memWrite_stream (s : State) (a : Nat) (b : List Byte) :
    (s.memWrite a b).stream = s.stream := rfl
@[simp] theorem State.memWrite_responses (s : State) (a : Nat) (b : List Byte) :
    (s.memWrite a b).responses = s.responses := rfl
@[simp] theorem State.memWrite_hashReqs (s : State) (a : Nat) (b : List Byte) :
    (s.memWrite a b).hashReqs = s.hashReqs := rfl
@[simp] theorem State.memWrite_draws (s : State) (a : Nat) (b : List Byte) : (s.memWrite a b).draws = s.draws := rfl
@[simp] theorem State.memWrite_hashUnitAnswers (s : State) (a : Nat) (b : List Byte) :
    (s.memWrite a b).hashUnitAnswers = s.hashUnitAnswers := rfl

/-! ### `setLen` -/

@[simp] theorem State.setLen_w (s : State) (n : BitVec 7) : (s.setLen n).w = s.w := rfl
@[simp] theorem State.setLen_buf (s : State) (n : BitVec 7) : (s.setLen n).buf = s.buf := rfl
@[simp] theorem State.setLen_len (s : State) (n : BitVec 7) : (s.setLen n).len = n := rfl
@[simp] theorem State.setLen_stream (s : State) (n : BitVec 7) : (s.setLen n).stream = s.stream := rfl
@[simp] theorem State.setLen_responses (s : State) (n : BitVec 7) : (s.setLen n).responses = s.responses := rfl
@[simp] theorem State.setLen_hashReqs (s : State) (n : BitVec 7) : (s.setLen n).hashReqs = s.hashReqs := rfl
@[simp] theorem State.setLen_draws (s : State) (n : BitVec 7) : (s.setLen n).draws = s.draws := rfl
@[simp] theorem State.setLen_hashUnitAnswers (s : State) (n : BitVec 7) :
    (s.setLen n).hashUnitAnswers = s.hashUnitAnswers := rfl

/-! ### `writeLimb` -/

@[simp] theorem State.writeLimb_w (s : State) (r : Reg) (k : LimbIndex) (x : Limb) :
    (s.writeLimb r k x).w = s.w.set r.val ((s.w[r]).set k.val ⟨x, true⟩) := rfl
@[simp] theorem State.writeLimb_buf (s : State) (r : Reg) (k : LimbIndex) (x : Limb) :
    (s.writeLimb r k x).buf = s.buf := rfl
@[simp] theorem State.writeLimb_len (s : State) (r : Reg) (k : LimbIndex) (x : Limb) :
    (s.writeLimb r k x).len = s.len := rfl
@[simp] theorem State.writeLimb_stream (s : State) (r : Reg) (k : LimbIndex) (x : Limb) :
    (s.writeLimb r k x).stream = s.stream := rfl
@[simp] theorem State.writeLimb_responses (s : State) (r : Reg) (k : LimbIndex) (x : Limb) :
    (s.writeLimb r k x).responses = s.responses := rfl
@[simp] theorem State.writeLimb_hashReqs (s : State) (r : Reg) (k : LimbIndex) (x : Limb) :
    (s.writeLimb r k x).hashReqs = s.hashReqs := rfl
@[simp] theorem State.writeLimb_draws (s : State) (r : Reg) (k : LimbIndex) (x : Limb) :
    (s.writeLimb r k x).draws = s.draws := rfl
@[simp] theorem State.writeLimb_hashUnitAnswers (s : State) (r : Reg) (k : LimbIndex) (x : Limb) :
    (s.writeLimb r k x).hashUnitAnswers = s.hashUnitAnswers := rfl

/-! ### `writeReg` -/

@[simp] theorem State.writeReg_w (s : State) (r : Reg) (v : U320) :
    (s.writeReg r v).w = s.w.set r.val (writtenReg v) := rfl
@[simp] theorem State.writeReg_buf (s : State) (r : Reg) (v : U320) : (s.writeReg r v).buf = s.buf := rfl
@[simp] theorem State.writeReg_len (s : State) (r : Reg) (v : U320) : (s.writeReg r v).len = s.len := rfl
@[simp] theorem State.writeReg_stream (s : State) (r : Reg) (v : U320) : (s.writeReg r v).stream = s.stream := rfl
@[simp] theorem State.writeReg_responses (s : State) (r : Reg) (v : U320) :
    (s.writeReg r v).responses = s.responses := rfl
@[simp] theorem State.writeReg_hashReqs (s : State) (r : Reg) (v : U320) :
    (s.writeReg r v).hashReqs = s.hashReqs := rfl
@[simp] theorem State.writeReg_draws (s : State) (r : Reg) (v : U320) : (s.writeReg r v).draws = s.draws := rfl
@[simp] theorem State.writeReg_hashUnitAnswers (s : State) (r : Reg) (v : U320) :
    (s.writeReg r v).hashUnitAnswers = s.hashUnitAnswers := rfl

/-! ### `respond` -/

@[simp] theorem State.respond_w (s : State) (st : Status) (x : Limb) : (s.respond st x).w = s.w := rfl
@[simp] theorem State.respond_buf (s : State) (st : Status) (x : Limb) : (s.respond st x).buf = s.buf := rfl
@[simp] theorem State.respond_len (s : State) (st : Status) (x : Limb) : (s.respond st x).len = s.len := rfl
@[simp] theorem State.respond_stream (s : State) (st : Status) (x : Limb) : (s.respond st x).stream = s.stream := rfl
@[simp] theorem State.respond_responses (s : State) (st : Status) (x : Limb) :
    (s.respond st x).responses = s.responses ++ [⟨st, x⟩] := rfl
@[simp] theorem State.respond_hashReqs (s : State) (st : Status) (x : Limb) :
    (s.respond st x).hashReqs = s.hashReqs := rfl
@[simp] theorem State.respond_draws (s : State) (st : Status) (x : Limb) : (s.respond st x).draws = s.draws + 1 := rfl
@[simp] theorem State.respond_hashUnitAnswers (s : State) (st : Status) (x : Limb) :
    (s.respond st x).hashUnitAnswers = s.hashUnitAnswers := rfl

/-! ### `hashReq` -/

@[simp] theorem State.hashReq_w (s : State) (m : List Byte) : (s.hashReq m).2.w = s.w := rfl
@[simp] theorem State.hashReq_buf (s : State) (m : List Byte) : (s.hashReq m).2.buf = s.buf := rfl
@[simp] theorem State.hashReq_len (s : State) (m : List Byte) : (s.hashReq m).2.len = s.len := rfl
@[simp] theorem State.hashReq_stream (s : State) (m : List Byte) : (s.hashReq m).2.stream = s.stream := rfl
@[simp] theorem State.hashReq_responses (s : State) (m : List Byte) : (s.hashReq m).2.responses = s.responses := rfl
@[simp] theorem State.hashReq_hashReqs (s : State) (m : List Byte) :
    (s.hashReq m).2.hashReqs = s.hashReqs ++ [m] := rfl
@[simp] theorem State.hashReq_draws (s : State) (m : List Byte) : (s.hashReq m).2.draws = s.draws := rfl
@[simp] theorem State.hashReq_hashUnitAnswers (s : State) (m : List Byte) :
    (s.hashReq m).2.hashUnitAnswers = s.hashUnitAnswers := rfl

/-! ### `coreReset` -/

@[simp] theorem State.coreReset_w (s : State) : s.coreReset.w = unwrittenRegs := rfl
@[simp] theorem State.coreReset_buf (s : State) : s.coreReset.buf = [] := rfl
@[simp] theorem State.coreReset_len (s : State) : s.coreReset.len = 0 := rfl
@[simp] theorem State.coreReset_stream (s : State) : s.coreReset.stream = s.stream := rfl
@[simp] theorem State.coreReset_responses (s : State) : s.coreReset.responses = s.responses := rfl
@[simp] theorem State.coreReset_hashReqs (s : State) : s.coreReset.hashReqs = s.hashReqs := rfl
@[simp] theorem State.coreReset_draws (s : State) : s.coreReset.draws = s.draws + 1 := rfl
@[simp] theorem State.coreReset_hashUnitAnswers (s : State) : s.coreReset.hashUnitAnswers = s.hashUnitAnswers := rfl

/-! ### `withFetchWord` -/

@[simp] theorem State.withFetchWord_stream (s : State) (nbits w : Nat) :
    (s.withFetchWord nbits w).stream = .command (tableCommand nbits w) :: s.stream := rfl
@[simp] theorem State.withFetchWord_w (s : State) (nbits w : Nat) : (s.withFetchWord nbits w).w = s.w := rfl
@[simp] theorem State.withFetchWord_buf (s : State) (nbits w : Nat) : (s.withFetchWord nbits w).buf = s.buf := rfl
@[simp] theorem State.withFetchWord_len (s : State) (nbits w : Nat) : (s.withFetchWord nbits w).len = s.len := rfl
@[simp] theorem State.withFetchWord_responses (s : State) (nbits w : Nat) : (s.withFetchWord nbits w).responses = s.responses := rfl
@[simp] theorem State.withFetchWord_hashReqs (s : State) (nbits w : Nat) : (s.withFetchWord nbits w).hashReqs = s.hashReqs := rfl
@[simp] theorem State.withFetchWord_draws (s : State) (nbits w : Nat) : (s.withFetchWord nbits w).draws = s.draws := rfl
@[simp] theorem State.withFetchWord_hashUnitAnswers (s : State) (nbits w : Nat) : (s.withFetchWord nbits w).hashUnitAnswers = s.hashUnitAnswers := rfl

end Sys2Proof.Machine
end

