-- ==== Sys2Proof/Laws/Memory.lean ====
section
/-! SUPPORT. The buffer: what a read gives after a write, and that every memory operation keeps the canonical form. -/

namespace Sys2Proof.Machine

@[simp] theorem Memory.stored_nil (x : Nat) : Memory.stored [] x = none := rfl

theorem Memory.stored_cons (a : Nat) (b : Byte) (m : Memory) (x : Nat) :
    Memory.stored ((a, b) :: m) x = if x = a then some b else Memory.stored m x := rfl

/-- Nothing is listed below the first address of a canonical memory. -/
theorem Memory.stored_none_of_lt {m : Memory} {x : Nat} (h : ∀ c ∈ m, x < c.1) : Memory.stored m x = none := by
  induction m with
  | nil => rfl
  | cons c m ih =>
    have hc := h c (by simp)
    rw [Memory.stored_cons, if_neg (by omega)]
    exact ih fun d hd => h d (by simp [hd])

/-- Read after `put`. -/
theorem Memory.stored_put {m : Memory} (x : Nat) (v : Byte) (y : Nat) :
    (m.put x v).stored y = if y = x then some v else m.stored y := by
  induction m with
  | nil => rfl
  | cons c m ih =>
    obtain ⟨a, b⟩ := c
    unfold Memory.put
    split
    · simp [Memory.stored_cons]
    · split
      · subst x
        by_cases h : y = a <;> simp [Memory.stored_cons, h]
      · rename_i hlt hne
        rw [Memory.stored_cons, ih, Memory.stored_cons]
        by_cases h : y = a
        · subst y; simp [Ne.symm hne]
        · simp [h]

/-- Read after `write`. -/
theorem Memory.stored_write (m : Memory) (x : Nat) (v : Byte) (y : Nat) :
    (m.write x v).stored y = if y = x ∧ x < 64 then some v else m.stored y := by
  unfold Memory.write Config.bufSize
  split
  · rw [Memory.stored_put]; simp_all
  · simp_all

/-- Read after `writeBytes` inside the buffer: the bytes written, and every other byte as before. -/
theorem Memory.stored_writeBytes (b : List Byte) (m : Memory) (addr y : Nat) (h : addr + b.length ≤ 64) :
    (m.writeBytes addr b).stored y =
      if addr ≤ y ∧ y < addr + b.length then b[y - addr]? else m.stored y := by
  induction b generalizing m addr with
  | nil => rw [if_neg (by simp only [List.length_nil]; omega)]; rfl
  | cons v rest ih =>
    simp only [List.length_cons] at h ⊢
    unfold Memory.writeBytes
    rw [ih _ _ (by omega), Memory.stored_write]
    by_cases h1 : y = addr
    · subst y
      rw [if_neg (by omega), if_pos (by omega), if_pos (by omega)]
      simp
    · by_cases h2 : addr + 1 ≤ y ∧ y < addr + 1 + rest.length
      · rw [if_pos h2, if_pos (by omega)]
        obtain ⟨i, rfl⟩ : ∃ i, y = addr + 1 + i := ⟨y - (addr + 1), by omega⟩
        rw [show addr + 1 + i - (addr + 1) = i by omega, show addr + 1 + i - addr = i + 1 by omega]
        simp
      · rw [if_neg h2, if_neg (by omega), if_neg (by omega)]

theorem Memory.wf_nil : Memory.wf [] := by simp [Memory.wf]

/-- `put` lists no address but the old ones and the new one. -/
theorem Memory.mem_put {m : Memory} {x : Nat} {v : Byte} {c : Host.Cell} (h : c ∈ m.put x v) : c = (x, v) ∨ c ∈ m := by
  induction m with
  | nil => simpa [Memory.put] using h
  | cons d m ih =>
    obtain ⟨a, b⟩ := d
    unfold Memory.put at h
    split at h
    · simpa using h
    · split at h
      · rcases List.mem_cons.mp h with h | h
        · exact .inl h
        · exact .inr (by simp [h])
      · rcases List.mem_cons.mp h with h | h
        · exact .inr (by simp [h])
        · rcases ih h with h | h
          · exact .inl h
          · exact .inr (by simp [h])

/-- `put` keeps the canonical form. -/
theorem Memory.wf_put {m : Memory} {x : Nat} {v : Byte} (hm : m.wf) (hx : x < 64) : (m.put x v).wf := by
  refine ⟨?_, fun c hc => ?_⟩
  · have hp := hm.1
    clear hm
    induction m with
    | nil => simp [Memory.put]
    | cons d m ih =>
      obtain ⟨a, b⟩ := d
      rw [List.pairwise_cons] at hp
      unfold Memory.put
      split
      · rename_i hlt
        refine List.pairwise_cons.mpr ⟨fun c hc => ?_, List.pairwise_cons.mpr hp⟩
        rcases List.mem_cons.mp hc with h | h
        · subst h; exact hlt
        · exact Nat.lt_trans hlt (hp.1 c h)
      · split
        · rename_i _ heq
          subst heq
          exact List.pairwise_cons.mpr ⟨fun c hc => hp.1 c hc, hp.2⟩
        · rename_i hlt hne
          refine List.pairwise_cons.mpr ⟨fun c hc => ?_, ih hp.2⟩
          rcases Memory.mem_put hc with h | h
          · subst h; show a < x; omega
          · exact hp.1 c h
  · rcases Memory.mem_put hc with h | h
    · subst h; exact hx
    · exact hm.2 c h

/-- `write` keeps the canonical form. -/
theorem Memory.wf_write {m : Memory} (x : Nat) (v : Byte) (hm : m.wf) : (m.write x v).wf := by
  unfold Memory.write
  split
  · exact Memory.wf_put hm (by assumption)
  · exact hm

/-- `writeBytes` keeps the canonical form. -/
theorem Memory.wf_writeBytes (b : List Byte) {m : Memory} (addr : Nat) (hm : m.wf) : (m.writeBytes addr b).wf := by
  induction b generalizing m addr with
  | nil => exact hm
  | cons v rest ih => exact ih _ (Memory.wf_write addr v hm)

/-- The reset state's buffer is in the canonical form. -/
theorem State.reset_buf_wf : State.reset.buf.wf := Memory.wf_nil

/-- The canonical form is canonical: memories with the same bytes are the same list. -/
theorem Memory.ext_of_wf {m n : Memory} (hm : m.wf) (hn : n.wf) (h : ∀ x, m.stored x = n.stored x) : m = n := by
  induction m generalizing n with
  | nil =>
    cases n with
    | nil => rfl
    | cons d n =>
      have := h d.1
      rw [show d = (d.1, d.2) from rfl, Memory.stored_cons] at this
      simp at this
  | cons c m ih =>
    obtain ⟨a, b⟩ := c
    have hp := List.pairwise_cons.mp hm.1
    cases n with
    | nil => have := h a; simp [Memory.stored_cons] at this
    | cons d n =>
      obtain ⟨a', b'⟩ := d
      have hq := List.pairwise_cons.mp hn.1
      have haa : a = a' := by
        have h1 := h a
        have h2 := h a'
        rcases Nat.lt_trichotomy a a' with hlt | heq | hgt
        · have : Memory.stored n a = none :=
            Memory.stored_none_of_lt fun c hc => Nat.lt_trans hlt (hq.1 c hc)
          simp [Memory.stored_cons, this, Nat.ne_of_lt hlt] at h1
        · exact heq
        · have : Memory.stored m a' = none :=
            Memory.stored_none_of_lt fun c hc => Nat.lt_trans hgt (hp.1 c hc)
          simp [Memory.stored_cons, this, Nat.ne_of_lt hgt] at h2
      subst haa
      have hb : b = b' := by simpa [Memory.stored_cons] using h a
      subst hb
      have hm' : Memory.wf m := ⟨hp.2, fun c hc => hm.2 c (by simp [hc])⟩
      have hn' : Memory.wf n := ⟨hq.2, fun c hc => hn.2 c (by simp [hc])⟩
      have : m = n := ih hm' hn' fun x => by
        by_cases hx : x = a
        · subst hx
          rw [Memory.stored_none_of_lt fun c hc => hp.1 c hc, Memory.stored_none_of_lt fun c hc => hq.1 c hc]
        · simpa [Memory.stored_cons, hx] using h x
      rw [this]

end Sys2Proof.Machine
end

