-- ==== Sys2Proof/Laws/PerInstr.lean ====
section
/-! SUPPORT. One lemma per constructor of `Instr`: the command word of R62 lies in the row of its opcode, so no bit outside
the format's fields is set. -/

namespace Sys2Proof.Laws.InRow

/-- The word of a command selects the row of R65 of its opcode. -/
def Statement (i : Instr) : Prop := (i.opcode.row).selects (encode i).cmd = true

theorem ldz (rd : Reg) (wdata : Limb) : Statement (.ldz rd wdata) := by
  show Opcode.LDZ.row.selects (assembleWord 0x01#8 rd 0 0 0 0 0) = true
  revert rd; decide

theorem ldl (rd : Reg) (k : BitVec 3) (wdata : Limb) : Statement (.ldl rd k wdata) := by
  show Opcode.LDL.row.selects (assembleWord 0x02#8 rd 0 0 k 0 0) = true
  revert rd k; decide

theorem rdl (ra : Reg) (k : BitVec 3) : Statement (.rdl ra k) := by
  revert ra k; unfold Statement encode; decide

theorem add (rd ra rb : Reg) : Statement (.add rd ra rb) := by
  revert rd ra rb; unfold Statement encode; decide

theorem muls (rd ra : Reg) (wdata : Limb) : Statement (.muls rd ra wdata) := by
  show Opcode.MULS.row.selects (assembleWord 0x11#8 rd ra 0 0 0 0) = true
  revert rd ra; decide

theorem tobytes (ra : Reg) : Statement (.tobytes ra) := by revert ra; unfold Statement encode; decide

theorem decode (rd : Reg) : Statement (.decode rd) := by revert rd; unfold Statement Sys2Proof.encode; decide

theorem encode (ra : Reg) : Statement (.encode ra) := by revert ra; unfold Statement Sys2Proof.encode; decide

theorem fchk (ra : Reg) : Statement (.fchk ra) := by revert ra; unfold Statement Sys2Proof.encode; decide

theorem valid (ra : Reg) : Statement (.valid ra) := by revert ra; unfold Statement Sys2Proof.encode; decide

/-- A word of 14 operand bits under the mask that clears them. -/
theorem and_high_mask {q n : Nat} (hq : q < 2 ^ 18) (hn : n < 2 ^ 14) :
    BitVec.ofNat 32 (2 ^ 14 * q + n) &&& 0xFFFFC000#32 = BitVec.ofNat 32 (2 ^ 14 * q) := by
  apply BitVec.eq_of_toNat_eq
  have hmask : (0xFFFFC000#32).toNat = 2 ^ 14 * (2 ^ 18 - 1) := by decide
  rw [BitVec.toNat_and, hmask, BitVec.toNat_ofNat, BitVec.toNat_ofNat, Nat.mod_eq_of_lt (by omega),
    Nat.mod_eq_of_lt (by omega)]
  apply Nat.eq_of_testBit_eq
  intro i
  rw [Nat.testBit_and, Nat.testBit_two_pow_mul, Nat.testBit_two_pow_mul, Nat.testBit_two_pow_sub_one,
    Nat.testBit_two_pow_mul_add _ hn]
  by_cases h : i < 14
  · simp [h, Nat.not_le.mpr h]
  · by_cases h2 : i - 14 < 18
    · simp [h, h2, Nat.le_of_not_lt h]
    · have : q.testBit (i - 14) = false :=
        Nat.testBit_lt_two_pow (Nat.lt_of_lt_of_le hq (Nat.pow_le_pow_right (by omega) (by omega)))
      simp [h2, this]

theorem sb (addr : BitVec 6) (imm8 : Byte) : Statement (.sb addr imm8) := by
  have h := and_high_mask (q := 0x14000) (n := addr.toNat * 2 ^ 8 + imm8.toNat) (by omega) (by omega)
  have hw : assembleWord 0x50#8 0 0 0 0 addr imm8 =
      BitVec.ofNat 32 (2 ^ 14 * 0x14000 + (addr.toNat * 2 ^ 8 + imm8.toNat)) := by
    unfold assembleWord
    congr 1
    show 0x50 * 2 ^ 24 + 0 * 2 ^ 22 + 0 * 2 ^ 20 + 0 * 2 ^ 18 + 0 * 2 ^ 15 + addr.toNat * 2 ^ 8 + imm8.toNat = _
    omega
  show Opcode.SB.row.selects (assembleWord 0x50#8 0 0 0 0 addr imm8) = true
  rw [hw]
  exact beq_iff_eq.mpr h

theorem lb (addr : BitVec 6) : Statement (.lb addr) := by revert addr; unfold Statement Sys2Proof.encode; decide

theorem slen (imm8 : Byte) : Statement (.slen imm8) := by revert imm8; unfold Statement Sys2Proof.encode; decide

theorem glen : Statement .glen := by unfold Statement Sys2Proof.encode; decide

end Sys2Proof.Laws.InRow
end

