-- ==== Sys2Proof/Laws/Regs.lean ====
section
/-! SUPPORT. The value registers: what a read gives after a write, and that a write touches nothing else. -/

namespace Sys2Proof.Machine

theorem State.cell_eq (s : State) (r : Reg) (k : LimbIndex) : s.cell r k = (s.w[r])[k] := rfl

/-- Cells depend on the registers alone. -/
theorem State.cell_congr {s t : State} (h : t.w = s.w) (r : Reg) (k : LimbIndex) : t.cell r k = s.cell r k := by
  rw [State.cell_eq, State.cell_eq, h]

@[simp] theorem State.cell_respond (s : State) (st : Status) (x : Limb) (r : Reg) (k : LimbIndex) :
    (s.respond st x).cell r k = s.cell r k := rfl

/-- The limbs of `writtenReg`. -/
@[simp] theorem writtenReg_getElem (v : U320) (k : LimbIndex) : (writtenReg v)[k] = ⟨limb v k, true⟩ := by
  fin_cases k <;> rfl

/-- Registers after a register write. -/
theorem State.writeReg_reg (s : State) (r : Reg) (v : U320) (q : Reg) :
    (s.writeReg r v).w[q] = if q = r then writtenReg v else s.w[q] := by
  by_cases h : q = r
  · subst h; simp
  · have : r.val ≠ q.val := fun e => h (Fin.ext e.symm)
    simp [h, this]

/-- Registers after a limb write. -/
theorem State.writeLimb_reg (s : State) (r : Reg) (k : LimbIndex) (x : Limb) (q : Reg) :
    (s.writeLimb r k x).w[q] = if q = r then (s.w[r]).set k.val ⟨x, true⟩ else s.w[q] := by
  by_cases h : q = r
  · subst h; simp
  · have : r.val ≠ q.val := fun e => h (Fin.ext e.symm)
    simp [h, this]

/-- A register write leaves the destination holding the value. -/
theorem State.writeReg_holds (s : State) (r : Reg) (v : U320) : (s.writeReg r v).Holds r v := by
  intro k
  rw [State.cell_eq, State.writeReg_reg, if_pos rfl, writtenReg_getElem]

/-- A register write leaves every other register alone. -/
theorem State.writeReg_sameOtherRegs (s : State) (r : Reg) (v : U320) : SameOtherRegs r s (s.writeReg r v) := by
  intro q hq
  rw [State.writeReg_reg, if_neg hq]

/-- Cells after a limb write. -/
theorem State.writeLimb_cell (s : State) (r : Reg) (k : LimbIndex) (x : Limb) (q : Reg) (j : LimbIndex) :
    (s.writeLimb r k x).cell q j = if q = r ∧ j = k then ⟨x, true⟩ else s.cell q j := by
  rw [State.cell_eq, State.writeLimb_reg, State.cell_eq]
  by_cases h : q = r
  · subst h
    by_cases hj : j = k
    · subst hj; simp
    · have : k.val ≠ j.val := fun e => hj (Fin.ext e.symm)
      simp [hj, this]
  · simp [h]

/-- A limb write leaves every other register alone. -/
theorem State.writeLimb_sameOtherRegs (s : State) (r : Reg) (k : LimbIndex) (x : Limb) :
    SameOtherRegs r s (s.writeLimb r k x) := by
  intro q hq
  rw [State.writeLimb_reg, if_neg hq]

/-- A read of a written limb gives what was written. -/
theorem State.readLimb_written {s : State} {src : Source} {r : Reg} {k : LimbIndex} (h : (s.cell r k).written = true) :
    s.readLimb src r k = (s.cell r k).value := by simp [State.readLimb, h]

/-- A read of an unwritten limb gives a free value. -/
theorem State.readLimb_unwritten {s : State} {src : Source} {r : Reg} {k : LimbIndex}
    (h : (s.cell r k).written = false) : s.readLimb src r k = Config.freeLimb s.draws src k := by simp [State.readLimb, h]

/-- Reads depend on the registers and the draw index alone. -/
theorem State.readReg_congr {s t : State} (hw : t.w = s.w) (hd : t.draws = s.draws) (src : Source) (r : Reg) :
    t.readReg src r = s.readReg src r := by
  simp only [State.readReg, State.readLimb, State.cell_congr hw, hd]

/-- Every limb is unwritten after reset. -/
theorem unwrittenRegs_written (r : Reg) (k : LimbIndex) : ((unwrittenRegs[r])[k]).written = false := by
  fin_cases r <;> fin_cases k <;> rfl

end Sys2Proof.Machine
end

