-- ==== Sys2Proof/Laws/Step.lean ====
section
/-! SUPPORT. What a step can do, once: one inversion lemma for the step, one for a command, one for each meaning whose next
state has more than one form. -/

namespace Sys2Proof.Machine

/-- Every way a step can answer a next state. -/
theorem step_cases {s t : State} (h : step s = .next t) :
    (s.stream = [] ∧ t = s) ∨
    (∃ c rest, s.stream = .command c :: rest ∧ runCommand c { s with stream := rest } = .next t) ∨
    (∃ rest, s.stream = .reset :: rest ∧ t = State.coreReset { s with stream := rest }) ∨
    (∃ c rest, s.stream = .resetDuring c :: rest ∧ t = abandonCommand c { s with stream := rest }) := by
  unfold step takeEvent at h
  split at h
  · rename_i hs
    exact .inl ⟨hs, (Host.Outcome.next.inj h).symm⟩
  · rename_i e rest hs
    cases e with
    | command c => exact .inr (.inl ⟨c, rest, hs, h⟩)
    | reset => exact .inr (.inr (.inl ⟨rest, hs, (Host.Outcome.next.inj h).symm⟩))
    | resetDuring c => exact .inr (.inr (.inr ⟨c, rest, hs, (Host.Outcome.next.inj h).symm⟩))
    | overlap a b => cases h

/-- Every way a command can be answered. -/
theorem runCommand_cases {c : Command} {s t : State} (h : runCommand c s = .next t) :
    (∃ why, decode c.cmd c.wdata = .illegal why ∧ t = s.respond .illegalCommand 0) ∨
    (∃ i, decode c.cmd c.wdata = .legal i ∧ exec i s = .next t) := by
  unfold runCommand at h
  split at h
  · rename_i i hi
    exact .inr ⟨i, hi, h⟩
  · rename_i why hi
    exact .inl ⟨why, hi, (Host.Outcome.next.inj h).symm⟩

/-- `LDL`: the limb is written, or the index selects none. -/
theorem execLdl_cases {rd : Reg} {k : BitVec 3} {x : Limb} {s t : State} (h : execLdl rd k x s = .next t) :
    (∃ i, limbIndex? k = some i ∧ t = (s.writeLimb rd i x).respond .ok 0) ∨
    (limbIndex? k = none ∧ t = s.respond .illegalCommand 0) := by
  unfold execLdl at h
  split at h
  · rename_i i hi; exact .inl ⟨i, hi, (Host.Outcome.next.inj h).symm⟩
  · rename_i hi; exact .inr ⟨hi, (Host.Outcome.next.inj h).symm⟩

/-- `RDL`: the limb is reported, or the index selects none. -/
theorem execRdl_cases {ra : Reg} {k : BitVec 3} {s t : State} (h : execRdl ra k s = .next t) :
    (∃ i, limbIndex? k = some i ∧ t = s.respond .ok (s.readLimb .a ra i)) ∨
    (limbIndex? k = none ∧ t = s.respond .illegalCommand 0) := by
  unfold execRdl at h
  split at h
  · rename_i i hi; exact .inl ⟨i, hi, (Host.Outcome.next.inj h).symm⟩
  · rename_i hi; exact .inr ⟨hi, (Host.Outcome.next.inj h).symm⟩

/-- `DECODE`: the three results of `b58dec`. -/
theorem execDecode_cases {rd : Reg} {s t : State} (h : execDecode rd s = .next t) :
    (∃ v, b58dec (s.memRead 0 s.len.toNat) = .ok v ∧ t = (s.writeReg rd v).respond .ok 0) ∨
    (b58dec (s.memRead 0 s.len.toNat) = .invalidLength ∧ t = s.respond .invalidLength 0) ∨
    (∃ c, b58dec (s.memRead 0 s.len.toNat) = .invalidCharacter c ∧ t = s.respond .invalidCharacter (zextByte c)) := by
  unfold execDecode at h
  cases hd : b58dec (s.memRead 0 s.len.toNat) with
  | ok v => exact .inl ⟨v, rfl, by rw [hd] at h; exact (Host.Outcome.next.inj h).symm⟩
  | invalidLength => exact .inr (.inl ⟨rfl, by rw [hd] at h; exact (Host.Outcome.next.inj h).symm⟩)
  | invalidCharacter c => exact .inr (.inr ⟨c, rfl, by rw [hd] at h; exact (Host.Outcome.next.inj h).symm⟩)

/-- `VALID`: stage 1 fails and nothing is hashed, or both stages run. -/
theorem execValid_cases {ra : Reg} {s t : State} (h : execValid ra s = .next t) :
    (fastcheck (s.readReg .a ra) = false ∧ t = s.respond .ok 0) ∨
    (fastcheck (s.readReg .a ra) = true ∧ s.hashUnitAnswers = true ∧ t = checksumStage (s.readReg .a ra) s) := by
  unfold execValid at h
  simp only [State.respOk_eq] at h
  generalize hv : s.readReg .a ra = v at h ⊢
  cases hf : fastcheck v <;> cases ha : s.hashUnitAnswers <;> rw [hf, ha] at h
  · exact .inl ⟨rfl, (Host.Outcome.next.inj h).symm⟩
  · exact .inl ⟨rfl, (Host.Outcome.next.inj h).symm⟩
  · cases h
  · exact .inr ⟨rfl, rfl, (Host.Outcome.next.inj h).symm⟩

/-- `SLEN`: the length is set, or it is no length. -/
theorem execSlen_cases {imm8 : Byte} {s t : State} (h : execSlen imm8 s = .next t) :
    (imm8.toNat ≤ 64 ∧ t = (s.setLen (BitVec.ofNat 7 imm8.toNat)).respond .ok 0) ∨
    (64 < imm8.toNat ∧ t = s.respond .illegalCommand 0) := by
  unfold execSlen lengthOperand? Config.bufSize at h
  by_cases hl : imm8.toNat ≤ 64
  · rw [if_pos hl] at h
    exact .inl ⟨hl, (Host.Outcome.next.inj h).symm⟩
  · rw [if_neg hl] at h
    exact .inr ⟨by omega, (Host.Outcome.next.inj h).symm⟩

/-- `TOBYTES` in one equation: it always completes. -/
theorem exec_tobytes (ra : Reg) (s : State) :
    exec (.tobytes ra) s =
      .next (((s.memWrite 0 (tobytes40 (s.readReg .a ra)).toList).setLen 40).respond .ok 40) := rfl

/-- `TOBYTES`: the bytes as a name of their own, so that no later proof evaluates the serializer. -/
theorem exec_tobytes_cases {ra : Reg} {s t : State} (h : exec (.tobytes ra) s = .next t) :
    ∃ b, b = (tobytes40 (s.readReg .a ra)).toList ∧ t = ((s.memWrite 0 b).setLen 40).respond .ok 40 :=
  ⟨_, rfl, (Host.Outcome.next.inj ((exec_tobytes ra s).symm.trans h)).symm⟩

/-- `ENCODE` in one equation: it always completes. -/
theorem exec_encode (ra : Reg) (s : State) :
    exec (.encode ra) s =
      .next (((s.memWrite 0 (b58enc (s.readReg .a ra))).setLen (BitVec.ofNat 7 (b58enc (s.readReg .a ra)).length)).respond .ok
        (BitVec.ofNat 64 (b58enc (s.readReg .a ra)).length)) := rfl

/-- `ENCODE`: the string as a name of its own, so that no later proof evaluates the encoder. -/
theorem exec_encode_cases {ra : Reg} {s t : State} (h : exec (.encode ra) s = .next t) :
    ∃ b, b = b58enc (s.readReg .a ra) ∧
      t = ((s.memWrite 0 b).setLen (BitVec.ofNat 7 b.length)).respond .ok (BitVec.ofNat 64 b.length) :=
  ⟨_, rfl, (Host.Outcome.next.inj ((exec_encode ra s).symm.trans h)).symm⟩

end Sys2Proof.Machine
end

