-- ==== Sys2Proof/Tests/Slice0.lean ====
section
/-! SUPPORT. Tests of one command each, with results from spec/95_test_vectors.md (the identifiers A3, M5, T1, ... are that
file's), and for every statement with hypotheses a witness that meets them. -/

namespace Sys2Proof.Tests

open Sys2Proof.Machine

set_option exponentiation.threshold 512

/-! ### Helpers -/

/-- The value of 95_test_vectors.md's notation `[l0, l1, l2, l3, l4]`. -/
def val (l0 l1 l2 l3 l4 : Limb) : U320 := fromLimbs l0 l1 l2 l3 l4

/-- `ONES` of 95_test_vectors.md. -/
def ones : U320 := BitVec.ofNat 320 (2 ^ 320 - 1)

/-- `VKEY` of 95_test_vectors.md. -/
def vkey : U320 :=
  val 0xF30DD7013682EEFB 0xC34178FA94A28A27 0xF25CB345D8254EBD 0x4EFA87717EFCFD76 0x000080B566F686F7

/-- `KEY` of 95_test_vectors.md. -/
def key : List Byte :=
  [0x4c, 0x33, 0x4a, 0x4c, 0x47, 0x65, 0x35, 0x72, 0x43, 0x69, 0x43, 0x73, 0x77]
    ++ [0x46, 0x79, 0x55, 0x4b, 0x72, 0x4c, 0x5a, 0x63, 0x33, 0x38, 0x69, 0x47, 0x75]
    ++ [0x6e, 0x48, 0x55, 0x4c, 0x50, 0x6b, 0x34, 0x61, 0x46, 0x46, 0x75, 0x48, 0x45]
    ++ [0x4c, 0x48, 0x4b, 0x55, 0x75, 0x6e, 0x74, 0x31, 0x4b, 0x65, 0x33, 0x33, 0x51]

/-- The reset state with `W[r]` holding `v`. -/
def withReg (r : Reg) (v : U320) : State := State.reset.writeReg r v

/-- The reset state with a string in `BUF` and its length in `LEN`. -/
def withStr (b : List Byte) : State := (State.reset.memWrite 0 b).setLen (BitVec.ofNat 7 b.length)

/-- A state in which every limb and every byte of `BUF` is written. -/
def filled : State :=
  { ((((State.reset.writeReg 0 1).writeReg 1 2).writeReg 2 3).writeReg 3 4) with
    buf := (List.range 64).map fun i => (i, 0x31), len := 52 }

/-- The next state, the state before where there is none. -/
def nextOf (s : State) (r : Result) : State :=
  match r with
  | .next t => t
  | .fault _ => s
  | .refused _ => s

/-- The state after a command. -/
def run1 (i : Instr) (s : State) : State := nextOf s (exec i s)

/-- The state after a command presented to the machine, one step. -/
def step1 (cmd : BitVec 32) (wdata : Limb) (s : State) : State :=
  nextOf s (step { s with stream := [.command ⟨cmd, wdata⟩] })

/-- The state after a fault or a refusal is none. -/
def stopped (r : Result) : Bool :=
  match r with
  | .next _ => false
  | .fault _ => true
  | .refused _ => true

/-- A register holds a value. -/
def holds (s : State) (r : Reg) (v : U320) : Bool := decide (s.Holds r v)

/-! ### WellFormed: each check refuses an ill-formed term, and accepts the value below it -/

theorem test_wf_ldl_index : ¬ WellFormed (.ldl 0 5 7) ∧ WellFormed (.ldl 0 4 7) := by decide

theorem test_wf_rdl_index : ¬ WellFormed (.rdl 0 7) ∧ WellFormed (.rdl 3 0) := by decide

theorem test_wf_slen_length : ¬ WellFormed (.slen 65) ∧ WellFormed (.slen 64) ∧ ¬ WellFormed (.slen 255) := by decide

/-! ### Decoding: a word of section 2.5 for every constructor, written out field by field where the fields are not 0 -/

theorem test_decode_ldz : decode 0b00000001_10_00_00_000_0_000000_00000000 0x3A = .legal (.ldz 2 0x3A) := by decide

theorem test_decode_ldl :
    decode 0b00000010_01_00_00_100_0_000000_00000000 0x80B566F686F7 = .legal (.ldl 1 4 0x80B566F686F7) := by decide

theorem test_decode_rdl : decode 0b00000011_00_11_00_100_0_000000_00000000 0 = .legal (.rdl 3 4) := by decide

theorem test_decode_add : decode 0b00010000_11_10_01_000_0_000000_00000000 0 = .legal (.add 3 2 1) := by decide

theorem test_decode_muls :
    decode 0b00010001_10_11_00_000_0_000000_00000000 0x9E3779B97F4A7C15 = .legal (.muls 2 3 0x9E3779B97F4A7C15) := by decide

theorem test_decode_tobytes : decode 0b00100000_00_01_00_000_0_000000_00000000 0 = .legal (.tobytes 1) := by decide

theorem test_decode_decode : decode 0b00110000_01_00_00_000_0_000000_00000000 0 = .legal (.decode 1) := by decide

theorem test_decode_encode : decode 0x31000000 0 = .legal (.encode 0) ∧ decode 0x31200000 0 = .legal (.encode 2) := by decide

theorem test_decode_fchk : decode 0b01000000_00_01_00_000_0_000000_00000000 0 = .legal (.fchk 1) := by decide

theorem test_decode_valid : decode 0b01000001_00_11_00_000_0_000000_00000000 0 = .legal (.valid 3) := by decide

theorem test_decode_sb :
    decode 0b01010000_00_00_00_000_0_111111_11111111 0 = .legal (.sb 63 0xFF) ∧
    decode 0b01010000_00_00_00_000_0_000000_01001100 0 = .legal (.sb 0 0x4C) := by decide

theorem test_decode_lb : decode 0b01010001_00_00_00_000_0_100111_00000000 0 = .legal (.lb 39) := by decide

theorem test_decode_slen :
    decode 0b01010010_00_00_00_000_0_000000_00110100 0 = .legal (.slen 52) ∧ decode 0x52000040 0 = .legal (.slen 64) := by
  decide

theorem test_decode_glen : decode 0b01010011_00_00_00_000_0_000000_00000000 0 = .legal .glen := by decide

/-- The illegal words of section 2.5: unassigned opcodes. -/
theorem test_illegal_opcodes :
    [0x00000000, 0xFFFFFFFF, 0x04000000, 0x12000000, 0x21000000, 0x32000000, 0x42000000, 0x54000000].map
      (fun w => decode (BitVec.ofNat 32 w) 0) = List.replicate 8 (.illegal .noRow) := by decide

/-- The illegal words of section 2.5: a bit outside the fields is set. -/
theorem test_illegal_unused_fields :
    [0x10048000, 0x01100000, 0x53000001, 0x51000301, 0x20004000, 0x30400100, 0x41040000].map
      (fun w => decode (BitVec.ofNat 32 w) 0) = List.replicate 7 (.illegal .noRow) := by decide

/-- The illegal words of section 2.5: a field value out of range. -/
theorem test_illegal_ranges :
    decode 0x02028000 7 = .illegal .limbIndex ∧ decode 0x03038000 0 = .illegal .limbIndex ∧
    decode 0x52000041 0 = .illegal .length ∧ decode 0x520000FF 0 = .illegal .length := by decide

/-- The encoder gives the words of section 2.5. -/
theorem test_encode_words :
    encode (.ldl 1 4 0x80B566F686F7) = ⟨0x02420000, 0x80B566F686F7⟩ ∧ encode (.rdl 3 4) = ⟨0x03320000, 0⟩ ∧
    encode (.add 3 2 1) = ⟨0x10E40000, 0⟩ ∧ encode (.sb 63 0xFF) = ⟨0x50003FFF, 0⟩ ∧
    encode (.lb 39) = ⟨0x51002700, 0⟩ ∧ encode (.slen 52) = ⟨0x52000034, 0⟩ := by decide

/-- The opcode table's numbering: the command word in bits 31 to 0, the operand above. -/
theorem test_tableWord :
    decodeTableWord 32 0x01800000 = some (.ldz 2 0) ∧ decodeTableWord 96 (0x01800000 + 0x3A * 2 ^ 32) = some (.ldz 2 0x3A) ∧
    decodeTableWord 32 0x52000041 = none := by decide

/-! ### One step runs the fetched command -/

/-- `GLEN` as the first command after reset answers `(OK, 0)` (section 2.8). -/
theorem test_step_glen : (nextOf State.reset (step (State.reset.withFetchWord 32 0x53000000))).responses = [⟨.ok, 0⟩] := by
  decide

/-- Step 3 of program P5: `SLEN 65` answers `(IllegalCommand, 0)` and `LEN` stays 0. -/
theorem test_step_illegal :
    (step1 0x52000041 0 State.reset).responses = [⟨.illegalCommand, 0⟩] ∧ (step1 0x52000041 0 State.reset).len = 0 := by decide

/-- An overlap stops by name. -/
theorem test_step_overlap :
    stopped (step { State.reset with stream := [.overlap ⟨0x53000000, 0⟩ ⟨0x53000000, 0⟩] }) = true := by decide

/-! ### Limb access -/

/-- Section 2.5: `LDZ W0, #5` leaves `[5, 0, 0, 0, 0]`. -/
theorem test_ldz : holds (run1 (.ldz 0 5) (withReg 0 ones)) 0 (val 5 0 0 0 0) = true := by decide

/-- Section 2.5: `LDZ W0, #5; LDL W0, 3, #9` leaves `[5, 0, 0, 9, 0]`. -/
theorem test_ldl : holds (run1 (.ldl 0 3 9) (withReg 0 (val 5 0 0 0 0))) 0 (val 5 0 0 9 0) = true := by decide

/-- Step 5 of program P5: `LDL W0, 5, #7` is illegal and writes nothing. -/
theorem test_ldl_illegal :
    holds (run1 (.ldl 0 5 7) (withReg 0 (val 0x1234 0 0 0 0))) 0 (val 0x1234 0 0 0 0) = true ∧
    (run1 (.ldl 0 5 7) (withReg 0 (val 0x1234 0 0 0 0))).responses = [⟨.illegalCommand, 0⟩] := by decide

/-- Steps 57 and 61 of program P2: the first and the last limb of `VKEY`. -/
theorem test_rdl :
    (run1 (.rdl 1 0) (withReg 1 vkey)).responses = [⟨.ok, 0xF30DD7013682EEFB⟩] ∧
    (run1 (.rdl 1 4) (withReg 1 vkey)).responses = [⟨.ok, 0x80B566F686F7⟩] := by decide

/-- A read of an unwritten limb gives the free value of the draw. -/
theorem test_rdl_unwritten : (run1 (.rdl 1 2) State.reset).responses = [⟨.ok, Config.freeLimb 0 .a 2⟩] := rfl

/-! ### The ALU -/

/-- A4 and A2: a carry over four limbs; the carry out of limb 4 is dropped. -/
theorem test_add :
    add320 (val 0xFFFFFFFFFFFFFFFF 0xFFFFFFFFFFFFFFFF 0xFFFFFFFFFFFFFFFF 0xFFFFFFFFFFFFFFFF 0) (val 1 0 0 0 0)
      = val 0 0 0 0 1 ∧
    add320 ones (val 1 0 0 0 0) = 0 := by decide

/-- Section 2.1, aliasing: `ADD W0, W0, W0` doubles. -/
theorem test_add_aliased :
    holds (run1 (.add 0 0 0) (withReg 0 (val 0xFFFFFFFFFFFFFFFF 0 0 0 0))) 0 (val 0xFFFFFFFFFFFFFFFE 1 0 0 0) = true := by
  decide

/-- M17: the product with `S`, every limb different. -/
theorem test_muls_value :
    muls320 (val 0x0123456789ABCDEF 0xFEDCBA9876543210 0x0F1E2D3C4B5A6978 0x8000000000000000 0x7FFFFFFFFFFFFFFF)
      0x9E3779B97F4A7C15
      = val 0x0C93A7B79AEDA89B 0x55E8E28334DA6465 0x5EADF2642E68B9D7 0x8957E697262A8C33 0x30E44323405AC1F5 := by decide

/-- M16 in place. -/
theorem test_muls :
    holds (run1 (.muls 0 0 0xFFFFFFFFFFFFFFFF) (withReg 0 (val 0xFFFFFFFFFFFFFFFF 2 0 0 0))) 0
      (val 1 0xFFFFFFFFFFFFFFFC 2 0 0) = true := by decide

/-- The datapaths: the carry chain of A6, the trace of M8, the division of `ONES`. -/
theorem test_datapaths :
    rippleAdd (val 0x0123456789ABCDEF 0xFEDCBA9876543210 0x0F1E2D3C4B5A6978 0x8000000000000000 0x7FFFFFFFFFFFFFFF)
      (val 0xFEDCBA9876543211 0x0123456789ABCDEF 0xF0E1D2C3B4A59687 0x8000000000000000 0x8000000000000000)
      = (val 0 0 0 1 0, 1) ∧
    (mulChain (val 0x0123456789ABCDEF 0xFEDCBA9876543210 0x0F1E2D3C4B5A6978 0x8000000000000000 0x7FFFFFFFFFFFFFFF) 0x3A).2
      = [0, 0x39, 3, 0x1D, 0x1C] ∧
    divChain ones = (val 0x469EE58469EE5846 0x58469EE58469EE58 0xEE58469EE58469EE 0x69EE58469EE58469 0x0469EE58469EE584, 35) :=
  by decide

/-! ### The serializer -/

/-- T1: byte `j` of the serialization is `j`, and `LEN` is 40. -/
theorem test_tobytes :
    (run1 (.tobytes 2) (withReg 2 (val 0x2021222324252627 0x18191A1B1C1D1E1F 0x1011121314151617 0x08090A0B0C0D0E0F
      0x0001020304050607))).buf = (List.range 40).map (fun j => (j, BitVec.ofNat 8 j)) ∧
    (run1 (.tobytes 2) (withReg 2 vkey)).len = 40 := by decide

/-! ### Base58 -/

/-- Section 2.4: digits at the ends of the alphabet's runs, and bytes outside it. -/
theorem test_b58index :
    [0x31, 0x39, 0x41, 0x48, 0x4A, 0x4E, 0x50, 0x5A, 0x61, 0x6B, 0x6D, 0x7A].map (fun c => b58index (BitVec.ofNat 8 c))
      = [0, 8, 9, 16, 17, 21, 22, 32, 33, 43, 44, 57].map some ∧
    [0x30, 0x49, 0x4F, 0x6C, 0x5F, 0x20, 0, 0x2F, 0x3A, 0x40, 0x5B, 0x60, 0x7B, 0x80, 0xFF].map
      (fun c => b58index (BitVec.ofNat 8 c)) = List.replicate 15 none := by decide

/-- E15: `Ke33Q`, and E1: the empty string for 0. -/
theorem test_encode :
    (run1 (.encode 1) (withReg 1 0x0C926DBB)).buf = [(0, 0x4B), (1, 0x65), (2, 0x33), (3, 0x33), (4, 0x51)] ∧
    (run1 (.encode 1) (withReg 1 0x0C926DBB)).responses = [⟨.ok, 5⟩] ∧ b58enc 0 = [] := by decide

set_option maxRecDepth 8000 in
/-- E14: the key. -/
theorem test_encode_key : b58enc vkey = key := by decide

set_option maxRecDepth 8000 in
/-- D7, S1: the key decodes to `VKEY`. -/
theorem test_decode_key : b58dec key = .ok vkey := by decide

/-- D10 and S4: the empty string after reset, and 53 characters, are `InvalidLength`. -/
theorem test_decode_length :
    (run1 (.decode 0) State.reset).responses = [⟨.invalidLength, 0⟩] ∧ b58dec (key ++ [0x31]) = .invalidLength := by decide

/-- D13: the leftmost bad byte is reported; D15: byte 0xFF is not sign-extended. -/
theorem test_decode_character :
    b58dec ((key.set 5 0x4F).set 10 0x6C) = .invalidCharacter 0x4F ∧ zextByte 0xFF = 0xFF := by decide

/-! ### The validator -/

/-- K1, K5, K9: the flag byte alone decides. -/
theorem test_fchk :
    (run1 (.fchk 1) (withReg 1 vkey)).responses = [⟨.ok, 1⟩] ∧ (run1 (.fchk 1) (withReg 1 ones)).responses = [⟨.ok, 0⟩] ∧
    fastcheck (val 0x0000008100000000 0 0 0 0) = false ∧ fastcheck (val 0x0000010100000000 0 0 0 0) = true := by decide

/-- K4: stage 1 fails, so nothing is hashed. -/
theorem test_valid_stage1 :
    (run1 (.valid 0) (withReg 0 0)).responses = [⟨.ok, 0⟩] ∧ (run1 (.valid 0) (withReg 0 0)).hashReqs = [] := by decide

/-- S1: the first request is the 34 payload bytes, the second the first digest; the claimed checksum is `3682eefb`. -/
theorem test_valid_requests :
    (run1 (.valid 1) (withReg 1 vkey)).hashReqs = [payload vkey, (Config.sha256 (payload vkey)).toList] ∧
    claimed vkey = [0x36, 0x82, 0xee, 0xfb] := by
  constructor
  · rfl
  · decide

/-- S1: the payload. -/
theorem test_payload :
    payload vkey =
      [0x80, 0xb5, 0x66, 0xf6, 0x86, 0xf7, 0x4e, 0xfa, 0x87, 0x71, 0x7e, 0xfc]
        ++ [0xfd, 0x76, 0xf2, 0x5c, 0xb3, 0x45, 0xd8, 0x25, 0x4e, 0xbd, 0xc3]
        ++ [0x41, 0x78, 0xfa, 0x94, 0xa2, 0x8a, 0x27, 0xf3, 0x0d, 0xd7, 0x01] := by decide

/-! ### The buffer -/

/-- Section 2.5: `SB 5, 0x41` stores and does not move `LEN`. -/
theorem test_sb : (run1 (.sb 5 0x41) State.reset).buf = [(5, 0x41)] ∧ (run1 (.sb 5 0x41) State.reset).len = 0 := by decide

/-- Section 2.5: `SB 63, 0xFF; LB 63` answers `(OK, 0xFF)`; an unwritten byte reads as the free value of the draw. -/
theorem test_lb : (run1 (.lb 63) (State.reset.memWrite 63 [0xFF])).responses = [⟨.ok, 0xFF⟩] := by decide

theorem test_lb_unwritten : (run1 (.lb 9) State.reset).responses = [⟨.ok, zextByte (Config.freeByte 0 9)⟩] := rfl

/-- Section 2.5: `SLEN 64`, and `SLEN 65` refused. -/
theorem test_slen :
    (run1 (.slen 64) State.reset).len = 64 ∧ (run1 (.slen 65) State.reset).len = 0 ∧
    (run1 (.slen 65) State.reset).responses = [⟨.illegalCommand, 0⟩] := by decide

/-- Section 2.5: `GLEN` after `SLEN 64` answers `(OK, 0x40)`. -/
theorem test_glen : (run1 .glen (State.reset.setLen 64)).responses = [⟨.ok, 0x40⟩] := by decide

/-! ### The assembler -/

/-- R70: `CLR W3` is `LDZ W3, #0`, `ADDI W0, W1` is `ADD W0, W0, W1`, a string of 65 characters has no expansion. -/
theorem test_expand :
    expand (.clr 3) = some [.ldz 3 0] ∧ expand (.addi 0 1) = some [.add 0 0 1] ∧
    expand (.str [0x41, 0x42]) = some [.sb 0 0x41, .sb 1 0x42, .slen 2] ∧
    expand (.str (List.replicate 65 0x31)) = none := by decide

/-- R69: the lines of section 2.5. -/
theorem test_asmLine : asmLine (.add 3 2 1) = "ADD W3, W2, W1" ∧ asmLine (.ldz 2 58) = "LDZ W2, #58" := by decide

/-! ### Witnesses: for each statement with hypotheses, values that meet them -/

/-- EncodeThenDecodeGivesTheCommand: well-formed commands with every field at its greatest value. -/
theorem witness_wellFormed :
    WellFormed (.ldl 3 4 0xFFFFFFFFFFFFFFFF) ∧ WellFormed (.rdl 3 4) ∧ WellFormed (.add 3 3 3) ∧ WellFormed (.sb 63 0xFF) ∧
    WellFormed (.slen 64) := by decide

/-- ALegalWordIsTheEncodingOfItsCommand: a legal word that uses `WDATA` and one that does not. -/
theorem witness_legalWord :
    decode 0x01800000 0x3A = .legal (.ldz 2 0x3A) ∧ (Instr.ldz 2 0x3A).opcode.usesWdata = true ∧
    decode 0x53000000 7 = .legal .glen := by decide

/-- TheRowsAreDisjoint: a word a row selects. -/
theorem witness_selects : Opcode.GLEN.row.selects 0x53000000 = true := by decide

/-- TheDecoderFollowsItsFourSteps: a word for each of the three ways to be illegal, and a legal one. -/
theorem witness_illegalWays :
    decode 0x00000000 0 = .illegal .noRow ∧
    (Opcode.LDL.row.selects 0x02028000 = true ∧ 4 < (field 0x02028000 15 3).toNat) ∧
    (Opcode.RDL.row.selects 0x03038000 = true ∧ 4 < (field 0x03038000 15 3).toNat) ∧
    (Opcode.SLEN.row.selects 0x52000041 = true ∧ 64 < (field 0x52000041 0 8).toNat) ∧
    (Opcode.SLEN.row.selects 0x52000040 = true ∧ decode 0x52000040 0 = .legal (.slen 64)) := by decide

/-- UnusedWdataHasNoEffect: a word that uses no `WDATA`. -/
theorem witness_unusedWdata :
    Opcode.LDZ.row.selects 0x53000000 = false ∧ Opcode.LDL.row.selects 0x53000000 = false ∧
    Opcode.MULS.row.selects 0x53000000 = false := by decide

/-- AnIllegalWordOnlyAnswers. -/
theorem witness_illegalWord : ∃ why, decode 0x00000000 0 = .illegal why := ⟨.noRow, by decide⟩

/-- AReadOfAWrittenRegisterIsItsValue. -/
theorem witness_holds : (withReg 1 vkey).Holds 1 vkey := by decide

/-- LdlLoadsOneLimb and RdlReadsOneLimb: the limb indexes that are illegal, and a written and an unwritten limb. -/
theorem witness_limbIndex : 4 < (5#3).toNat ∧ 4 < (6#3).toNat ∧ 4 < (7#3).toNat := by decide

theorem witness_limbWritten :
    ((withReg 1 vkey).cell 1 4).written = true ∧ (State.reset.cell 1 4).written = false := by decide

/-- LdlLoadsOneLimb: the limb index at its ends, and the limbs it leaves. -/
theorem witness_ldlBoundary :
    holds (run1 (.ldl 3 0 9) (withReg 3 ones)) 3
      (val 9 0xFFFFFFFFFFFFFFFF 0xFFFFFFFFFFFFFFFF 0xFFFFFFFFFFFFFFFF 0xFFFFFFFFFFFFFFFF) = true ∧
    holds (run1 (.ldl 3 4 9) (withReg 3 ones)) 3
      (val 0xFFFFFFFFFFFFFFFF 0xFFFFFFFFFFFFFFFF 0xFFFFFFFFFFFFFFFF 0xFFFFFFFFFFFFFFFF 9) = true := by decide

/-- MultiplicationDistributesOverAddition: a product below `2^320` (M5). -/
theorem witness_noWrap : (0xFFFFFFFFFFFFFFFF : U320).toNat * (0xFFFFFFFFFFFFFFFF : Limb).toNat < 2 ^ 320 := by decide

/-- SerializationIsBigEndian: the first and the last byte of the first and the last limb. -/
theorem witness_serialBoundary :
    (tobytes40 vkey)[0] = 0x00 ∧ (tobytes40 vkey)[7] = 0xF7 ∧ (tobytes40 vkey)[8] = 0x4E ∧ (tobytes40 vkey)[32] = 0xF3 ∧
    (tobytes40 vkey)[39] = 0xFB ∧ (4 : LimbIndex).val = 4 - 7 / 8 ∧ (0 : LimbIndex).val = 4 - 39 / 8 := by decide

/-- TheDigitOfAByte: the bytes at which its clauses meet. -/
theorem witness_digitBoundary :
    b58index 0x30 = none ∧ b58index 0x3A = none ∧ b58index 0x49 = none ∧ b58index 0x4F = none ∧ b58index 0x5B = none ∧
    b58index 0x6C = none ∧ b58index 0x7B = none := by decide

/-- TheLengthOfTheEncodersOutput: 1, 57, 58, and `58^52 - 1`. -/
theorem witness_lengths :
    1 ≤ (1 : U320).toNat ∧ (57 : U320).toNat ≤ 57 ∧ (b58enc 57).length = 1 ∧ (b58enc 58).length = 2 ∧
    (BitVec.ofNat 320 (58 ^ 52 - 1)).toNat < 58 ^ 52 := by decide

set_option maxRecDepth 8000 in
/-- TheLengthOfTheEncodersOutput: E9 has 52 characters, E10 53, E12 and E13 have 55. -/
theorem witness_lengths55 :
    (b58enc (BitVec.ofNat 320 (58 ^ 52 - 1))).length = 52 ∧ (b58enc (BitVec.ofNat 320 (58 ^ 52))).length = 53 ∧
    (b58enc (BitVec.ofNat 320 (58 ^ 54))).length = 55 ∧ (b58enc ones).length = 55 := by decide

/-- TheDecoderGivesThePositionalValue: D1, fifty-two `1`. -/
theorem witness_digits :
    (List.replicate 52 (0x31 : Byte)).length = 52 ∧ digitsOf (List.replicate 52 0x31) = some (List.replicate 52 0) := by decide

set_option maxRecDepth 8000 in
/-- TheDecoderIsInjective and the first clause of EncodeAndDecodeRoundTrip: D2, fifty-one `1` and `2`. -/
theorem witness_decodeOk : b58dec (List.replicate 51 0x31 ++ [0x32]) = .ok 1 := by decide

/-- EncodeAndDecodeRoundTrip: values on both sides of `58^52`. -/
theorem witness_roundTrip :
    (BitVec.ofNat 320 (58 ^ 52 - 1)).toNat < 58 ^ 52 ∧ 58 ^ 52 ≤ (BitVec.ofNat 320 (58 ^ 52)).toNat := by decide

/-- DecodeWritesTheValueOrReportsTheError, DecodeThenValidJudgesTheKey: fifty-two `1` in `BUF`, the hash unit answering. -/
theorem witness_decodeDigits :
    (withStr (List.replicate 52 0x31)).len = 52 ∧ (List.replicate 52 0).length = 52 ∧
    (∀ (i : Nat) (_ : i < 52), b58index ((withStr (List.replicate 52 0x31)).readByte i) = (List.replicate 52 0)[i]?) ∧
    (withStr (List.replicate 52 0x31)).hashUnitAnswers = true := by decide

/-- DecodeWritesTheValueOrReportsTheError: lengths 51, 53 and 0. -/
theorem witness_decodeLength :
    (State.reset.setLen 51).len ≠ 52 ∧ (State.reset.setLen 53).len ≠ 52 ∧ State.reset.len ≠ 52 := by decide

/-- DecodeWritesTheValueOrReportsTheError: the leftmost bad byte at index 0, and at index 51. -/
theorem witness_decodeCharacter :
    (withStr (0x5F :: List.replicate 51 0x31)).len = 52 ∧
    b58index ((withStr (0x5F :: List.replicate 51 0x31)).readByte 0) = none ∧
    (withStr (List.replicate 51 0x31 ++ [0xFF])).len = 52 ∧
    (∀ j < 51, b58index ((withStr (List.replicate 51 0x31 ++ [0xFF])).readByte j) ≠ none) ∧
    b58index ((withStr (List.replicate 51 0x31 ++ [0xFF])).readByte 51) = none := by decide

/-- TheFastCheckIsTheFlagByte: two values with the same limb 0. -/
theorem witness_sameLimb0 : limb (val 7 0 0 0 0) 0 = limb (val 7 1 2 3 4) 0 := by decide

/-- ValidReportsTheVerdictAndItsRequests: the hash unit answers, the flag test passing and failing. -/
theorem witness_hashAnswers :
    (withReg 1 vkey).hashUnitAnswers = true ∧ fastcheck ((withReg 1 vkey).readReg .a 1) = true ∧
    (withReg 1 ones).hashUnitAnswers = true ∧ fastcheck ((withReg 1 ones).readReg .a 1) = false := by decide

/-- ASilentHashUnitStopsValidPastStageOne: the hash unit silent, the flag test passing and failing. -/
theorem witness_hashSilent :
    fastcheck (State.readReg { withReg 1 vkey with hashUnitAnswers := false } .a 1) = true ∧
    fastcheck (State.readReg { withReg 1 ones with hashUnitAnswers := false } .a 1) = false := by decide

/-- TheTopTwoBytesAreNotTested: K10 and K11 differ above bit 303 only. -/
theorem witness_topBytes :
    (val 0x000001014671FC3F 0 0 0 0x0000800000000000).toNat % 2 ^ 304
      = (val 0x000001014671FC3F 0 0 0 0xFFFF800000000000).toNat % 2 ^ 304 := by decide

/-- LbReadsOneByte: a written byte at the last address. -/
theorem witness_storedByte : (State.reset.memWrite 63 [0xFF]).buf.stored (63 : BitVec 6).toNat = some 0xFF := by decide

/-- SlenSetsTheLength: the greatest length, and the two ends of the range above it. -/
theorem witness_slen : (64 : Byte).toNat ≤ 64 ∧ 64 < (65 : Byte).toNat ∧ 64 < (255 : Byte).toNat := by decide

/-- StrPresentsTheString: the longest string. -/
theorem witness_str : (List.replicate 64 (0x7A : Byte)).length ≤ 64 := by decide

/-- ACommandWritesOnlyWhatItNames: a command that answers a next state, and a register and bytes it leaves. -/
theorem witness_execNext :
    exec (.slen 52) State.reset = .next ((State.reset.setLen 52).respond .ok 0) ∧ destination (.slen 52) ≠ some 3 ∧
    setsLen .glen = false := ⟨rfl, by decide, by decide⟩

/-- ARaisingCommandChangesNothing, WhichCommandRaisesWhat: commands that raise each of the three statuses. -/
theorem witness_raises :
    runCommand ⟨0x30000000, 0⟩ State.reset = .next (State.reset.respond .invalidLength 0) ∧
    runCommand ⟨0, 0⟩ State.reset = .next (State.reset.respond .illegalCommand 0) ∧
    (State.reset.respond .invalidLength 0).responses = State.reset.responses ++ [⟨.invalidLength, 0⟩] := ⟨rfl, rfl, rfl⟩

theorem witness_raisesCharacter :
    (step1 0x30000000 0 (withStr (0x5F :: List.replicate 51 0x31))).responses = [⟨.invalidCharacter, 0x5F⟩] := by decide

/-- NothingIsLatchedBetweenCommands: states that differ in what has passed the ports. -/
theorem witness_ledgers : SameButLedgers State.reset { State.reset with responses := [⟨.illegalCommand, 0⟩] } := by decide

theorem witness_glenNext : runCommand ⟨0x53000000, 0⟩ State.reset = .next (State.reset.respond .ok 0) := rfl

/-- AWrittenStateUsesNoFreeValue, RepeatingACommandChangesNothingMore: a state in which everything is written. -/
theorem witness_allWritten : filled.AllWritten := by decide

theorem witness_filledNext : runCommand ⟨0x51003F00, 0⟩ filled = .next (filled.respond .ok 0x31) := rfl

/-- RepeatingACommandChangesNothingMore: an `ADD` whose destination is no source, run twice. -/
theorem witness_repeat :
    destination (.add 0 1 2) = some 0 ∧ (0 : Reg) ∉ arithSources (.add 0 1 2) ∧ stopped (exec (.add 0 1 2) filled) = false ∧
    stopped (exec (.add 0 1 2) (run1 (.add 0 1 2) filled)) = false := by decide

/-- WrittenStateStaysWritten: a written limb and byte before a command that answers. -/
theorem witness_written : (filled.cell 3 4).written = true ∧ (filled.buf.stored 63).isSome = true := by decide

/-- AStepRunsTheDecodedCommand. -/
theorem witness_stepCommand :
    ({ State.reset with stream := [.command ⟨0x53000000, 0⟩] } : State).stream = .command ⟨0x53000000, 0⟩ :: [] ∧
    decode 0x53000000 0 = .legal .glen := by decide

/-- TheOtherEventsOfTheHost and AResetAbandonsTheCommandInProgress. -/
theorem witness_events :
    State.reset.stream = [] ∧
    ({ filled with stream := [.reset] } : State).stream = .reset :: [] ∧
    ({ filled with stream := [.overlap ⟨0, 0⟩ ⟨0, 0⟩] } : State).stream = .overlap ⟨0, 0⟩ ⟨0, 0⟩ :: [] ∧
    ({ filled with stream := [.resetDuring ⟨0x41100000, 0⟩] } : State).stream = .resetDuring ⟨0x41100000, 0⟩ :: [] := by decide

theorem witness_abandoned : stopped (runCommand ⟨0x41100000, 0⟩ filled) = false := by decide

/-- EveryStepKeepsTheInvariant: a state with every byte listed and `LEN` 52, and a step from it. -/
theorem witness_inv : filled.Inv ∧ step filled = .next filled := ⟨by decide, rfl⟩

/-- EveryCommandIsAnsweredOnce: two commands and a reset behind them. -/
theorem witness_commands :
    ({ State.reset with stream := [.command ⟨0x53000000, 0⟩, .command ⟨0, 0⟩, .reset] } : State).stream =
      [⟨0x53000000, 0⟩, ⟨0, 0⟩].map HostEvent.command ++ [.reset] ∧ State.reset.hashUnitAnswers = true := by decide

end Sys2Proof.Tests
end

section
/-! PROOFS. A value and its five limbs (R8), and a read of a register all of whose limbs are written (R10, R20). -/

namespace Sys2Proof.Machine

theorem limb_toNat (v : U320) (k : LimbIndex) : (limb v k).toNat = v.toNat / 2 ^ (64 * k.val) % 2 ^ 64 := by
  rw [limb, bits, BitVec.toNat_ofNat]

/-- Five limbs are the digits of a number below `2^320`, so `fromLimbs` drops nothing. -/
theorem fromLimbs_toNat (l0 l1 l2 l3 l4 : Limb) :
    (fromLimbs l0 l1 l2 l3 l4).toNat =
      l0.toNat + l1.toNat * 2 ^ 64 + l2.toNat * 2 ^ 128 + l3.toNat * 2 ^ 192 + l4.toNat * 2 ^ 256 := by
  rw [fromLimbs, BitVec.toNat_ofNat, Nat.mod_eq_of_lt (by omega)]

/-- Limb `k` of a value made from five limbs is the limb given at `k`. -/
theorem limb_fromLimbs (l0 l1 l2 l3 l4 : Limb) (k : LimbIndex) :
    limb (fromLimbs l0 l1 l2 l3 l4) k = #v[l0, l1, l2, l3, l4][k] := by
  apply BitVec.eq_of_toNat_eq
  rw [limb_toNat, fromLimbs_toNat]
  fin_cases k <;> dsimp <;> omega

/-- A value is the sum of its five base-`2^64` digits. -/
theorem sum_base_two_pow_64_digits (v : U320) :
    v.toNat / 2 ^ (64 * 0) % 2 ^ 64 + v.toNat / 2 ^ (64 * 1) % 2 ^ 64 * 2 ^ 64 +
      v.toNat / 2 ^ (64 * 2) % 2 ^ 64 * 2 ^ 128 + v.toNat / 2 ^ (64 * 3) % 2 ^ 64 * 2 ^ 192 +
      v.toNat / 2 ^ (64 * 4) % 2 ^ 64 * 2 ^ 256 = v.toNat := by
  omega

/-- The value made from the five limbs of `v` is `v`: the limbs are the base-`2^64` digits of `v`. -/
@[simp] theorem fromLimbs_limb (v : U320) :
    fromLimbs (limb v 0) (limb v 1) (limb v 2) (limb v 3) (limb v 4) = v := by
  apply BitVec.eq_of_toNat_eq
  simp only [fromLimbs_toNat, limb_toNat]
  exact sum_base_two_pow_64_digits v

/-- A limb of a register that holds `v` reads as that limb of `v`, as either source operand. -/
theorem State.Holds.readLimb {s : State} {r : Reg} {v : U320} (h : s.Holds r v) (src : Source) (k : LimbIndex) :
    s.readLimb src r k = limb v k := by
  have hw : (s.cell r k).written = true := by rw [h k]
  rw [State.readLimb_written hw, h k]

/-- A register that holds `v` reads as `v`, as either source operand. -/
theorem State.Holds.readReg {s : State} {r : Reg} {v : U320} (h : s.Holds r v) (src : Source) :
    s.readReg src r = v := by
  simp only [State.readReg, h.readLimb, fromLimbs_limb]

/-- Settles O9: the limbs are the five base-`2^64` digits of the value. -/
theorem limbsAndValuesDetermineEachOther : Obligations.LimbsAndValuesDetermineEachOther := by
  refine ⟨fun l0 l1 l2 l3 l4 => ?_, fromLimbs_limb⟩
  have h := limb_fromLimbs l0 l1 l2 l3 l4
  exact ⟨h 0, h 1, h 2, h 3, h 4⟩

/-- Settles O10: each limb reads as that limb of the value, and the five limbs of a value make it up again. -/
theorem aReadOfAWrittenRegisterIsItsValue : Obligations.AReadOfAWrittenRegisterIsItsValue :=
  fun _ src _ _ h => h.readReg src

end Sys2Proof.Machine
end

section
/-! PROOFS. What a command does, cut in two: `effect` says what it decides from what it reads, `Effect.apply` what that does
to the state. `exec_eq_answer` and `runCommand_eq_answer` tie both halves to the model; the laws of all commands are then
case splits over the seven effects. -/

namespace Sys2Proof.Machine

/-! ### The effects -/

/-- What a command that completes does to the state, its operands read. -/
inductive Effect where
  /-- Nothing but a response. -/
  | report (st : Status) (x : Limb)
  /-- `W[rd] <- v` (R80, R92, R96, R128). -/
  | setReg (rd : Reg) (v : U320)
  /-- `W[rd].limb[k] <- x` (R81). -/
  | setLimb (rd : Reg) (k : LimbIndex) (x : Limb)
  /-- `BUF[addr] <- b` (R160). -/
  | storeByte (addr : BitVec 6) (b : Byte)
  /-- `BUF[0..n-1]` and `LEN` are written, `n` bytes (R112, R126). -/
  | storeString (b : List Byte)
  /-- `LEN <- n` (R162). -/
  | setLength (n : BitVec 7)
  /-- Stage 2 of `VALID` with its two hash requests (R146). -/
  | checkHash (v : U320)

/-- The next state of an effect. -/
def Effect.apply (e : Effect) (s : State) : State :=
  match e with
  | .report st x => s.respond st x
  | .setReg rd v => (s.writeReg rd v).respond .ok 0
  | .setLimb rd k x => (s.writeLimb rd k x).respond .ok 0
  | .storeByte addr b => (s.memWrite addr.toNat [b]).respond .ok 0
  | .storeString b => ((s.memWrite 0 b).setLen (BitVec.ofNat 7 b.length)).respond .ok (BitVec.ofNat 64 b.length)
  | .setLength n => (s.setLen n).respond .ok 0
  | .checkHash v => checksumStage v s

/-- The response an effect sends. -/
def Effect.response : Effect → Response
  | .report st x => ⟨st, x⟩
  | .setReg _ _ | .setLimb _ _ _ | .storeByte _ _ | .setLength _ => ⟨.ok, 0⟩
  | .storeString b => ⟨.ok, BitVec.ofNat 64 b.length⟩
  | .checkHash v =>
    ⟨.ok, boolDatum (checksumMatches (Config.sha256 (Config.sha256 (payload v)).toList) (tobytes40 v))⟩

/-- The hash requests an effect makes, in order. -/
def Effect.requests : Effect → List (List Byte)
  | .report _ _ | .setReg _ _ | .setLimb _ _ _ | .storeByte _ _ | .storeString _ | .setLength _ => []
  | .checkHash v => [payload v, (Config.sha256 (payload v)).toList]

/-- What `DECODE` does on each result of `b58dec` (R128). -/
def decodeEffect (rd : Reg) : DecodeResult → Effect
  | .ok v => .setReg rd v
  | .invalidLength => .report .invalidLength 0
  | .invalidCharacter c => .report .invalidCharacter (zextByte c)

/-- What a command does in a state; none for a `VALID` that waits for a silent hash unit (R145, U5). -/
def effect (i : Instr) (s : State) : Option Effect :=
  match i with
  | .ldz rd wdata => some (.setReg rd (fromLimbs wdata 0 0 0 0))
  | .ldl rd k wdata => some ((limbIndex? k).elim (.report .illegalCommand 0) (.setLimb rd · wdata))
  | .rdl ra k => some ((limbIndex? k).elim (.report .illegalCommand 0) (.report .ok <| s.readLimb .a ra ·))
  | .add rd ra rb => some (.setReg rd (add320 (s.readReg .a ra) (s.readReg .b rb)))
  | .muls rd ra wdata => some (.setReg rd (muls320 (s.readReg .a ra) wdata))
  | .tobytes ra => some (.storeString (tobytes40 (s.readReg .a ra)).toList)
  | .decode rd => some (decodeEffect rd (b58dec (s.memRead 0 s.len.toNat)))
  | .encode ra => some (.storeString (b58enc (s.readReg .a ra)))
  | .fchk ra => some (.report .ok (boolDatum (fastcheck (s.readReg .a ra))))
  | .valid ra =>
    if fastcheck (s.readReg .a ra) then
      if s.hashUnitAnswers then some (.checkHash (s.readReg .a ra)) else none
    else some (.report .ok 0)
  | .sb addr imm8 => some (.storeByte addr imm8)
  | .lb addr => some (.report .ok (zextByte (s.readByte addr.toNat)))
  | .slen imm8 => some ((lengthOperand? imm8).elim (.report .illegalCommand 0) .setLength)
  | .glen => some (.report .ok (BitVec.ofNat 64 s.len.toNat))

/-- What a command word does in a state (R66, R173). -/
def commandEffect (c : Command) (s : State) : Option Effect :=
  match decode c.cmd c.wdata with
  | .legal i => effect i s
  | .illegal _ => some (.report .illegalCommand 0)

/-- The outcome of a command with its effect in hand. -/
def answer (e : Option Effect) (s : State) : Result :=
  match e with
  | some e => .next (e.apply s)
  | none => .fault .hashUnitSilent

theorem answer_eq_next_iff {e : Option Effect} {s t : State} :
    answer e s = .next t ↔ ∃ a, e = some a ∧ t = a.apply s := by
  cases e with
  | none => simp [answer]
  | some a => simp [answer, eq_comm]

/-! ### The tie to the model -/

/-- Every meaning is its effect, applied. -/
theorem exec_eq_answer (i : Instr) (s : State) : exec i s = answer (effect i s) s := by
  cases i with
  | ldl rd k wdata =>
    simp only [exec, execLdl, effect]
    cases limbIndex? k <;> rfl
  | rdl ra k =>
    simp only [exec, execRdl, effect]
    cases limbIndex? k <;> rfl
  | slen imm8 =>
    simp only [exec, execSlen, effect]
    cases lengthOperand? imm8 <;> rfl
  | decode rd =>
    simp only [exec, execDecode, effect]
    cases b58dec (s.memRead 0 s.len.toNat) <;> rfl
  | valid ra =>
    simp only [exec, execValid, effect]
    cases fastcheck (s.readReg .a ra) <;> cases s.hashUnitAnswers <;> rfl
  | tobytes ra =>
    rw [exec_tobytes]
    simp only [effect, answer, Effect.apply, Vector.length_toList]
    rfl
  | ldz | add | muls | encode | fchk | sb | lb | glen => rfl

theorem runCommand_eq_answer (c : Command) (s : State) : runCommand c s = answer (commandEffect c s) s := by
  unfold runCommand commandEffect
  cases decode c.cmd c.wdata with
  | legal i => exact exec_eq_answer i s
  | illegal why => rfl

theorem exec_eq_next_iff {i : Instr} {s t : State} :
    exec i s = .next t ↔ ∃ e, effect i s = some e ∧ t = e.apply s := by
  rw [exec_eq_answer, answer_eq_next_iff]

theorem runCommand_eq_next_iff {c : Command} {s t : State} :
    runCommand c s = .next t ↔ ∃ e, commandEffect c s = some e ∧ t = e.apply s := by
  rw [runCommand_eq_answer, answer_eq_next_iff]

/-! ### What every effect does to the model's own fields -/

/-- Stage 2 of `VALID` in one equation. -/
theorem checksumStage_eq (v : U320) (s : State) :
    checksumStage v s =
      ((s.hashReq (payload v)).2.hashReq (Config.sha256 (payload v)).toList).2.respond .ok
        (boolDatum (checksumMatches (Config.sha256 (Config.sha256 (payload v)).toList) (tobytes40 v))) := rfl

@[simp] theorem Effect.apply_stream (e : Effect) (s : State) : (e.apply s).stream = s.stream := by
  cases e <;> rfl

@[simp] theorem Effect.apply_hashUnitAnswers (e : Effect) (s : State) :
    (e.apply s).hashUnitAnswers = s.hashUnitAnswers := by
  cases e <;> rfl

@[simp] theorem Effect.apply_draws (e : Effect) (s : State) : (e.apply s).draws = s.draws + 1 := by
  cases e <;> rfl

@[simp] theorem Effect.apply_responses (e : Effect) (s : State) :
    (e.apply s).responses = s.responses ++ [e.response] := by
  cases e <;> rfl

@[simp] theorem Effect.apply_hashReqs (e : Effect) (s : State) : (e.apply s).hashReqs = s.hashReqs ++ e.requests := by
  cases e with
  | checkHash v => simp [Effect.apply, Effect.requests, checksumStage_eq]
  | report | setReg | setLimb | storeByte | storeString | setLength => simp [Effect.apply, Effect.requests]

/-- An effect counts one draw and looks at the index for nothing else. -/
theorem Effect.apply_withDraws (e : Effect) (s : State) (n : Nat) :
    e.apply { s with draws := n } = { e.apply s with draws := n + 1 } := by
  cases e <;> rfl

/-- An effect does not look at what has passed the ports. -/
theorem Effect.apply_sameButLedgers (e : Effect) {s s' : State} (h : SameButLedgers s s') :
    SameButLedgers (e.apply s) (e.apply s') := by
  obtain ⟨hw, hbuf, hlen, hdraws, hunit⟩ := h
  have hregs : (e.apply s').w = (e.apply s).w := by cases e <;> simp [Effect.apply, checksumStage_eq, hw]
  have hbytes : (e.apply s').buf = (e.apply s).buf := by cases e <;> simp [Effect.apply, checksumStage_eq, hbuf]
  have hlength : (e.apply s').len = (e.apply s).len := by cases e <;> simp [Effect.apply, checksumStage_eq, hlen]
  exact ⟨hregs, hbytes, hlength, by simp [hdraws], by simp [hunit]⟩

/-! ### What an effect may write -/

/-- The base-58 loop writes at most one digit per unit of fuel. -/
theorem encodeLoop_length_le (fuel v : Nat) (out : List Byte) :
    (encodeLoop fuel v out).length ≤ fuel + out.length := by
  induction fuel generalizing v out with
  | zero => simp [encodeLoop]
  | succ n ih =>
    unfold encodeLoop
    split
    · omega
    · have := ih (v / Config.radix) (alphabetByte (v % Config.radix) :: out)
      rw [List.length_cons] at this
      omega

theorem b58enc_length_le (v : U320) : (b58enc v).length ≤ 55 := encodeLoop_length_le 55 v.toNat []

/-- A length that `SLEN` accepts is at most 64 (R162). -/
theorem lengthOperand?_le {imm8 : Byte} {n : BitVec 7} (h : lengthOperand? imm8 = some n) : n.toNat ≤ 64 := by
  unfold lengthOperand? Config.bufSize at h
  split at h
  · cases h; rw [BitVec.toNat_ofNat]; omega
  · cases h

/-- What the statements say a command may write, read off its effect: the register is the destination, the bytes are the
range it stores to, `LEN` is set only by a command that sets it, and what goes into `BUF` and `LEN` fits. -/
def Effect.Permitted (i : Instr) (s : State) : Effect → Prop
  | .report _ _ | .checkHash _ => True
  | .setReg rd _ | .setLimb rd _ _ => destination i = some rd
  | .storeByte addr _ => storedRange s i = (addr.toNat, 1)
  | .storeString b => storedRange s i = (0, b.length) ∧ setsLen i = true ∧ b.length ≤ 64
  | .setLength n => setsLen i = true ∧ n.toNat ≤ 64

theorem effect_permitted {i : Instr} {s : State} {e : Effect} (h : effect i s = some e) : e.Permitted i s := by
  cases i with
  | ldl rd k wdata =>
    cases h
    cases limbIndex? k with
    | none => trivial
    | some j => rfl
  | rdl ra k =>
    cases h
    cases limbIndex? k <;> trivial
  | decode rd =>
    cases h
    cases b58dec (s.memRead 0 s.len.toNat) with
    | ok v => rfl
    | invalidLength | invalidCharacter c => trivial
  | slen imm8 =>
    cases h
    cases hn : lengthOperand? imm8 with
    | none => trivial
    | some n => exact ⟨rfl, lengthOperand?_le hn⟩
  | valid ra =>
    simp only [effect] at h
    split_ifs at h <;> cases h <;> trivial
  | tobytes ra =>
    cases h
    simp [Effect.Permitted, storedRange, setsLen]
  | encode ra =>
    cases h
    exact ⟨rfl, rfl, (b58enc_length_le _).trans (by decide)⟩
  | ldz | add | muls | sb => cases h; rfl
  | fchk | lb | glen => cases h; trivial

/-- Bytes written inside the buffer leave every other byte alone. -/
theorem State.memWrite_sameBytesOutside (s : State) {addr : Nat} {b : List Byte} (h : addr + b.length ≤ 64) :
    SameBytesOutside addr (addr + b.length) s (s.memWrite addr b) := by
  intro a ha
  rw [State.memWrite_buf, Memory.stored_writeBytes _ _ _ _ h, if_neg (by omega)]

theorem Effect.apply_reg {e : Effect} {i : Instr} {s : State} (h : e.Permitted i s) {r : Reg}
    (hr : destination i ≠ some r) : (e.apply s).w[r] = s.w[r] := by
  have other {rd : Reg} (hd : destination i = some rd) : r ≠ rd := fun hrd => hr (hrd ▸ hd)
  cases e with
  | setReg rd v => exact State.writeReg_sameOtherRegs s rd v r (other h)
  | setLimb rd k x => exact State.writeLimb_sameOtherRegs s rd k x r (other h)
  | report | storeByte | storeString | setLength | checkHash => rfl

theorem Effect.apply_sameBytesOutside {e : Effect} {i : Instr} {s : State} (h : e.Permitted i s) :
    SameBytesOutside (storedRange s i).1 ((storedRange s i).1 + (storedRange s i).2) s (e.apply s) := by
  cases e with
  | storeByte addr b =>
    rw [show storedRange s i = (addr.toNat, 1) from h]
    exact s.memWrite_sameBytesOutside (b := [b]) (by simp; omega)
  | storeString b =>
    obtain ⟨hrange, -, hb⟩ := h
    rw [hrange]
    exact s.memWrite_sameBytesOutside (addr := 0) (by omega)
  | report | setReg | setLimb | setLength | checkHash => exact fun _ _ => rfl

theorem Effect.apply_len {e : Effect} {i : Instr} {s : State} (h : e.Permitted i s) (hi : setsLen i = false) :
    (e.apply s).len = s.len := by
  cases e with
  | storeString b => simp [hi, Effect.Permitted] at h
  | setLength n => simp [hi, Effect.Permitted] at h
  | report | setReg | setLimb | storeByte | checkHash => rfl

theorem Effect.apply_inv {e : Effect} {i : Instr} {s : State} (h : e.Permitted i s) (hs : s.Inv) :
    (e.apply s).Inv := by
  obtain ⟨hbuf, hlen⟩ := hs
  cases e with
  | storeByte addr b => exact ⟨Memory.wf_writeBytes _ _ hbuf, hlen⟩
  | storeString b =>
    obtain ⟨-, -, hb⟩ := h
    refine ⟨Memory.wf_writeBytes _ _ hbuf, ?_⟩
    simp only [Effect.apply, State.respond_len, State.setLen_len, BitVec.toNat_ofNat]
    omega
  | setLength n =>
    obtain ⟨-, hn⟩ := h
    exact ⟨hbuf, hn⟩
  | report | setReg | setLimb | checkHash => exact ⟨hbuf, hlen⟩

/-! ### The marks of R31 -/

/-- A listed byte stays listed over a write. -/
theorem Memory.stored_writeBytes_isSome (b : List Byte) {m : Memory} (addr : Nat) {x : Nat}
    (h : (m.stored x).isSome = true) : ((m.writeBytes addr b).stored x).isSome = true := by
  induction b generalizing m addr with
  | nil => exact h
  | cons v rest ih =>
    refine ih (addr + 1) ?_
    rw [Memory.stored_write]
    split
    · rfl
    · exact h

/-- A written limb stays written over a register write. -/
theorem State.writeReg_cell_written (s : State) (rd : Reg) (v : U320) {r : Reg} {k : LimbIndex}
    (h : (s.cell r k).written = true) : ((s.writeReg rd v).cell r k).written = true := by
  by_cases hr : r = rd
  · subst hr; rw [State.writeReg_holds]
  · rwa [State.cell_eq, State.writeReg_sameOtherRegs s rd v r hr]

/-- A written limb stays written over a limb write. -/
theorem State.writeLimb_cell_written (s : State) (rd : Reg) (j : LimbIndex) (x : Limb) {r : Reg} {k : LimbIndex}
    (h : (s.cell r k).written = true) : ((s.writeLimb rd j x).cell r k).written = true := by
  rw [State.writeLimb_cell]
  split
  · rfl
  · exact h

theorem Effect.apply_cell_written (e : Effect) {s : State} {r : Reg} {k : LimbIndex}
    (h : (s.cell r k).written = true) : ((e.apply s).cell r k).written = true := by
  cases e with
  | setReg rd v => exact State.writeReg_cell_written s rd v h
  | setLimb rd j x => exact State.writeLimb_cell_written s rd j x h
  | report | storeByte | storeString | setLength | checkHash => exact h

theorem Effect.apply_stored_isSome (e : Effect) {s : State} {a : Nat} (h : (s.buf.stored a).isSome = true) :
    ((e.apply s).buf.stored a).isSome = true := by
  cases e with
  | storeByte addr b => exact Memory.stored_writeBytes_isSome [b] _ h
  | storeString b => exact Memory.stored_writeBytes_isSome b _ h
  | report | setReg | setLimb | setLength | checkHash => exact h

/-! ### What a command reads -/

/-- Two states in which every command reads the same: each limb as either operand, each byte of `BUF`, `LEN`, and whether
the hash unit answers. -/
structure SameReads (s s' : State) : Prop where
  limb : ∀ (src : Source) (r : Reg) (k : LimbIndex), s'.readLimb src r k = s.readLimb src r k
  byte : ∀ a < 64, s'.readByte a = s.readByte a
  len : s'.len = s.len
  unit : s'.hashUnitAnswers = s.hashUnitAnswers

theorem SameReads.readReg {s s' : State} (h : SameReads s s') (src : Source) (r : Reg) :
    s'.readReg src r = s.readReg src r := by
  simp only [State.readReg, h.limb]

theorem b58dec_of_length_ne {b : List Byte} (h : b.length ≠ 52) : b58dec b = .invalidLength := if_pos h

theorem State.memRead_length (s : State) (addr n : Nat) : (s.memRead addr n).length = n := by simp [State.memRead]

/-- `DECODE` sees no byte outside `BUF`: another length than 52 is refused before a byte is looked at (R127). -/
theorem SameReads.b58dec_memRead {s s' : State} (h : SameReads s s') :
    b58dec (s'.memRead 0 s'.len.toNat) = b58dec (s.memRead 0 s.len.toNat) := by
  rw [h.len]
  by_cases hl : s.len.toNat = 52
  · have hbytes : s'.memRead 0 s.len.toNat = s.memRead 0 s.len.toNat :=
      List.map_congr_left fun a ha => h.byte _ (by rw [List.mem_range] at ha; omega)
    rw [hbytes]
  · rw [b58dec_of_length_ne (by rwa [State.memRead_length]), b58dec_of_length_ne (by rwa [State.memRead_length])]

theorem SameReads.effect {s s' : State} (h : SameReads s s') (i : Instr) : effect i s' = effect i s := by
  cases i with
  | rdl ra k => simp only [Machine.effect, h.limb]
  | decode rd => simp only [Machine.effect, h.b58dec_memRead]
  | lb addr => simp only [Machine.effect, h.byte addr.toNat addr.isLt]
  | glen => simp only [Machine.effect, h.len]
  | add | muls | tobytes | encode | fchk => simp only [Machine.effect, h.readReg]
  | valid ra => simp only [Machine.effect, h.readReg, h.unit]
  | ldz | ldl | sb | slen => rfl

theorem SameReads.commandEffect {s s' : State} (h : SameReads s s') (c : Command) :
    commandEffect c s' = commandEffect c s := by
  unfold Machine.commandEffect
  cases decode c.cmd c.wdata with
  | legal i => exact h.effect i
  | illegal why => rfl

/-- What has passed the ports is not read. -/
theorem SameButLedgers.sameReads {s s' : State} (h : SameButLedgers s s') : SameReads s s' := by
  obtain ⟨hw, hbuf, hlen, hdraws, hunit⟩ := h
  exact {
    limb := fun src r k => by simp only [State.readLimb, State.cell_congr hw, hdraws]
    byte := fun a _ => by simp only [State.readByte, hbuf, hdraws]
    len := hlen
    unit := hunit }

/-- A read of a listed byte gives that byte. -/
theorem State.readByte_stored {s : State} {a : Nat} {b : Byte} (h : s.buf.stored a = some b) : s.readByte a = b := by
  simp [State.readByte, h]

/-- Where everything is written the draw index is not read. -/
theorem State.AllWritten.sameReads_withDraws {s : State} (h : s.AllWritten) (n : Nat) :
    SameReads s { s with draws := n } := by
  obtain ⟨hlimbs, hbytes⟩ := h
  exact {
    limb := fun src r k => by
      rw [State.readLimb_written (hlimbs r k), State.readLimb_written (s := { s with draws := n }) (hlimbs r k)]
      rfl
    byte := fun a ha => by
      obtain ⟨b, hb⟩ := Option.isSome_iff_exists.mp (hbytes a ha)
      rw [State.readByte_stored hb, State.readByte_stored (s := { s with draws := n }) hb]
    len := rfl
    unit := rfl }

end Sys2Proof.Machine
end

section
/-! PROOFS. The state under every command and every step (10_state.md), and the reset state. -/

namespace Sys2Proof.Machine

/-! ### The invariant -/

theorem exec_keeps_inv {i : Instr} {s t : State} (hs : s.Inv) (h : exec i s = .next t) : t.Inv := by
  obtain ⟨e, he, rfl⟩ := exec_eq_next_iff.mp h
  exact Effect.apply_inv (effect_permitted he) hs

theorem runCommand_keeps_inv {c : Command} {s t : State} (hs : s.Inv) (h : runCommand c s = .next t) : t.Inv := by
  obtain ⟨_, _, rfl⟩ | ⟨i, _, hi⟩ := runCommand_cases h
  · exact hs
  · exact exec_keeps_inv hs hi

theorem State.coreReset_inv (s : State) : s.coreReset.Inv := ⟨Memory.wf_nil, Nat.zero_le 64⟩

/-- Settles O58: a command keeps the invariant because what it stores fits; the two resets establish it. -/
theorem everyStepKeepsTheInvariant : Obligations.EveryStepKeepsTheInvariant := by
  intro s t hs h
  obtain ⟨_, rfl⟩ | ⟨c, rest, _, hc⟩ | ⟨rest, _, rfl⟩ | ⟨c, rest, _, rfl⟩ := step_cases h
  · exact hs
  · exact runCommand_keeps_inv (s := { s with stream := rest }) hs hc
  · exact State.coreReset_inv _
  · exact State.coreReset_inv _

/-- Settles O59: the reset buffer lists nothing and `LEN` is 0. -/
theorem theResetStateMeetsTheInvariant : Obligations.TheResetStateMeetsTheInvariant :=
  ⟨State.reset_buf_wf, Nat.zero_le 64⟩

/-! ### Frame and marks -/

/-- Settles O47: an effect writes only what its command permits. -/
theorem aCommandWritesOnlyWhatItNames : Obligations.ACommandWritesOnlyWhatItNames := by
  intro i s t h
  obtain ⟨e, he, rfl⟩ := exec_eq_next_iff.mp h
  have hp := effect_permitted he
  exact ⟨fun r => Effect.apply_reg hp, Effect.apply_sameBytesOutside hp, Effect.apply_len hp, e.apply_stream s,
    e.apply_hashUnitAnswers s⟩

/-- Settles O53: no effect takes a mark away. -/
theorem writtenStateStaysWritten : Obligations.WrittenStateStaysWritten := by
  intro c s t h
  obtain ⟨e, -, rfl⟩ := runCommand_eq_next_iff.mp h
  exact ⟨fun _ _ => e.apply_cell_written, fun _ => e.apply_stored_isSome⟩

/-! ### What a command depends on -/

/-- Settles O50: the effect is chosen by reads of the core alone, and applying it looks at no ledger. -/
theorem nothingIsLatchedBetweenCommands : Obligations.NothingIsLatchedBetweenCommands := by
  intro c s s' t hss h
  obtain ⟨e, he, rfl⟩ := runCommand_eq_next_iff.mp h
  have he' : commandEffect c s' = some e := (hss.sameReads.commandEffect c).trans he
  exact ⟨e.apply s', e.response, e.requests, runCommand_eq_next_iff.mpr ⟨e, he', rfl⟩, e.apply_sameButLedgers hss,
    e.apply_responses s, e.apply_responses s', e.apply_hashReqs s, e.apply_hashReqs s'⟩

/-- Settles O51: over written state the reads, and so the effect, are the same for every draw index. -/
theorem aWrittenStateUsesNoFreeValue : Obligations.AWrittenStateUsesNoFreeValue := by
  intro c n s t hs h
  obtain ⟨e, he, rfl⟩ := runCommand_eq_next_iff.mp h
  have he' : commandEffect c { s with draws := n } = some e := ((hs.sameReads_withDraws n).commandEffect c).trans he
  exact runCommand_eq_next_iff.mpr ⟨e, he', (e.apply_withDraws s n).symm⟩

/-! ### Reset and the next command -/

/-- Settles O54: with `LEN` 0, `GLEN` reports 0 and `DECODE` is refused for its length. -/
theorem resetLeavesLenZeroAndTheRestUnwritten : Obligations.ResetLeavesLenZeroAndTheRestUnwritten :=
  ⟨rfl, unwrittenRegs_written, Memory.stored_nil, ⟨_, rfl, rfl⟩, fun _ => ⟨_, rfl, rfl⟩⟩

theorem step_of_stream_command {c : Command} {rest : List HostEvent} {s : State} (h : s.stream = .command c :: rest) :
    step s = runCommand c { s with stream := rest } := by
  rw [step, takeEvent, h]
  rfl

theorem runCommand_of_legal {c : Command} {i : Instr} (h : decode c.cmd c.wdata = .legal i) (s : State) :
    runCommand c s = exec i s := by
  rw [runCommand, h]

/-- Settles O55: the step takes the command, the decoder reads `i` from it. -/
theorem aStepRunsTheDecodedCommand : Obligations.AStepRunsTheDecodedCommand := by
  intro c rest s i hs hi
  rw [step_of_stream_command hs, runCommand_of_legal hi]

end Sys2Proof.Machine
end

section
/-! PROOFS. A command issued twice in a row (R46): over written state the first issue leaves what the command reads as it
was, so the second chooses the same effect, and an effect applied again writes what already stands. -/

namespace Sys2Proof.Machine

/-! ### Reads of written state -/

/-- Over written state a register that is left alone reads as before, whatever the draw index. -/
theorem State.AllWritten.readLimb_congr {s t : State} (hs : s.AllWritten) {r : Reg} (h : t.w[r] = s.w[r])
    (src : Source) (k : LimbIndex) : t.readLimb src r k = s.readLimb src r k := by
  have hcell : t.cell r k = s.cell r k := by rw [State.cell_eq, State.cell_eq, h]
  have hwritten : (s.cell r k).written = true := hs.1 r k
  rw [State.readLimb_written hwritten, State.readLimb_written (hcell ▸ hwritten), hcell]

theorem State.AllWritten.readReg_congr {s t : State} (hs : s.AllWritten) {r : Reg} (h : t.w[r] = s.w[r])
    (src : Source) : t.readReg src r = s.readReg src r := by
  simp only [State.readReg, hs.readLimb_congr h]

/-- The reads of written state depend on `W`, `BUF` and `LEN` and on whether the hash unit answers. -/
theorem State.AllWritten.sameReads {s t : State} (hs : s.AllWritten) (h : SameCore s t)
    (hunit : t.hashUnitAnswers = s.hashUnitAnswers) : SameReads s t := by
  obtain ⟨hw, hbytes, hlen⟩ := h
  exact {
    limb := fun src r k => hs.readLimb_congr (by rw [hw]) src k
    byte := fun a ha => by
      obtain ⟨b, hb⟩ := Option.isSome_iff_exists.mp (hs.2 a ha)
      rw [State.readByte_stored hb, State.readByte_stored ((hbytes a).trans hb)]
    len := hlen
    unit := hunit }

/-! ### The second issue chooses the same effect -/

/-- A command that stores to no byte leaves `BUF` alone. -/
theorem Effect.apply_sameBytes {e : Effect} {i : Instr} {s : State} (h : e.Permitted i s)
    (hi : storedRange s i = (0, 0)) : SameBytes s (e.apply s) := fun a =>
  Effect.apply_sameBytesOutside h a (by simp [hi])

/-- A command with no destination, no byte to store and no length to set leaves the core alone. -/
theorem Effect.apply_sameCore {e : Effect} {i : Instr} {s : State} (h : e.Permitted i s)
    (hreg : destination i = none) (hbytes : storedRange s i = (0, 0)) (hlen : setsLen i = false) :
    SameCore s (e.apply s) := by
  have hw : (e.apply s).w = s.w := Vector.ext fun r hr => Effect.apply_reg h (r := ⟨r, hr⟩) (by simp [hreg])
  exact ⟨hw, Effect.apply_sameBytes h hbytes, Effect.apply_len h hlen⟩

/-- No command writes what it reads, but an `ADD` or a `MULS` whose destination is a source. -/
theorem effect_apply_self {i : Instr} {s : State} {e : Effect} (hs : s.AllWritten)
    (hi : ∀ r, destination i = some r → r ∉ arithSources i) (h : effect i s = some e) :
    effect i (e.apply s) = some e := by
  have hp : e.Permitted i s := effect_permitted h
  have hread {r : Reg} (hr : destination i ≠ some r) (src : Source) : (e.apply s).readReg src r = s.readReg src r :=
    hs.readReg_congr (Effect.apply_reg hp hr) src
  cases i with
  | ldz | ldl | sb | slen => exact h
  | add rd ra rb =>
    have hsrc : rd ∉ [ra, rb] := hi rd rfl
    have ha := hread (r := ra) (fun hd => hsrc (by cases hd; simp)) .a
    have hb := hread (r := rb) (fun hd => hsrc (by cases hd; simp)) .b
    rw [← h, effect, effect, ha, hb]
  | muls rd ra wdata =>
    have hsrc : rd ∉ [ra] := hi rd rfl
    have ha := hread (r := ra) (fun hd => hsrc (by cases hd; simp)) .a
    rw [← h, effect, effect, ha]
  | tobytes ra | encode ra => rw [← h, effect, effect, hread nofun .a]
  | decode rd =>
    -- `DECODE` reads no register, so it decides as if `W` stood as before.
    have hcore : SameCore s { e.apply s with w := s.w } :=
      ⟨rfl, Effect.apply_sameBytes hp rfl, Effect.apply_len hp rfl⟩
    exact ((hs.sameReads hcore (e.apply_hashUnitAnswers s)).effect (.decode rd)).trans h
  | rdl | fchk | valid | lb | glen =>
    exact ((hs.sameReads (Effect.apply_sameCore hp rfl rfl rfl) (e.apply_hashUnitAnswers s)).effect _).trans h

/-! ### An effect applied again changes nothing more -/

theorem State.writeReg_writeReg_w (s : State) (r : Reg) (v : U320) :
    ((s.writeReg r v).writeReg r v).w = (s.writeReg r v).w := by
  simp only [State.writeReg_w, Vector.set_set]

theorem State.writeLimb_writeLimb_w (s : State) (r : Reg) (k : LimbIndex) (x : Limb) :
    ((s.writeLimb r k x).writeLimb r k x).w = (s.writeLimb r k x).w := by
  simp only [State.writeLimb_w, Fin.getElem_fin, Vector.getElem_set_self, Vector.set_set]

theorem Memory.stored_writeBytes_writeBytes (m : Memory) {addr : Nat} {b : List Byte} (h : addr + b.length ≤ 64)
    (a : Nat) : ((m.writeBytes addr b).writeBytes addr b).stored a = (m.writeBytes addr b).stored a := by
  rw [Memory.stored_writeBytes _ _ _ _ h, Memory.stored_writeBytes _ _ _ _ h]
  split <;> rfl

theorem Effect.apply_apply_sameCore {e : Effect} {i : Instr} {s : State} (h : e.Permitted i s) :
    SameCore (e.apply s) (e.apply (e.apply s)) := by
  cases e with
  | setReg rd v => exact ⟨State.writeReg_writeReg_w s rd v, fun _ => rfl, rfl⟩
  | setLimb rd k x => exact ⟨State.writeLimb_writeLimb_w s rd k x, fun _ => rfl, rfl⟩
  | storeByte addr b =>
    exact ⟨rfl, s.buf.stored_writeBytes_writeBytes (b := [b]) (by simp; omega), rfl⟩
  | storeString b =>
    obtain ⟨-, -, hb⟩ := h
    exact ⟨rfl, s.buf.stored_writeBytes_writeBytes (by omega), rfl⟩
  | report | setLength | checkHash => exact ⟨rfl, fun _ => rfl, rfl⟩

/-- Settles O52: both issues have one effect, and applying it a second time leaves the core as the first left it. -/
theorem repeatingACommandChangesNothingMore : Obligations.RepeatingACommandChangesNothingMore := by
  intro i s t u hs hi ht hu
  obtain ⟨e, he, rfl⟩ := exec_eq_next_iff.mp ht
  obtain ⟨f, hf, rfl⟩ := exec_eq_next_iff.mp hu
  obtain rfl : e = f := Option.some.inj ((effect_apply_self hs hi he).symm.trans hf)
  exact Effect.apply_apply_sameCore (effect_permitted he)

end Sys2Proof.Machine
end

section
/-! PROOFS. The decoder step by step (30_encoding.md R65, R66): a word selects at most one row, and past step 1 it is its
row's command, refused exactly when that command is ill-formed. -/

namespace Sys2Proof

/-! ### The row a word selects -/

theorem Row.selects_iff (r : Row) (cmd : BitVec 32) : r.selects cmd = true ↔ cmd &&& r.mask = r.pattern := beq_iff_eq

@[simp] theorem Opcode.row_opcode (op : Opcode) : op.row.opcode = op := by
  cases op <;> rfl

theorem Opcode.row_mem_rows (op : Opcode) : op.row ∈ rows := by
  cases op <;> decide

theorem exists_row_of_mem_rows {r : Row} (h : r ∈ rows) : ∃ op : Opcode, op.row = r := by
  obtain ⟨op, -, hop⟩ := List.mem_map.mp h
  exact ⟨op, hop⟩

/-- A field of a word is the pattern's wherever the row's mask covers the field. -/
theorem field_of_selects {r : Row} {cmd : BitVec 32} (h : r.selects cmd = true) {lo width : Nat}
    (hmask : field r.mask lo width = BitVec.allOnes width) : field cmd lo width = field r.pattern lo width := by
  have hand : field (cmd &&& r.mask) lo width = field cmd lo width &&& field r.mask lo width :=
    BitVec.extractLsb'_and
  rw [(r.selects_iff cmd).mp h, hmask, BitVec.and_allOnes] at hand
  exact hand.symm

/-- The opcode byte of a row (R65). -/
def Opcode.byte (op : Opcode) : BitVec 8 := field op.row.pattern 24 8

theorem opcodeByte_of_selects {op : Opcode} {cmd : BitVec 32} (h : op.row.selects cmd = true) :
    field cmd 24 8 = op.byte :=
  field_of_selects h (by cases op <;> rfl)

theorem Opcode.byte_injective {op op' : Opcode} (h : op.byte = op'.byte) : op = op' := by
  have hnodup : (rows.map fun r => field r.pattern 24 8).Nodup := by decide
  have hrow : op.row = op'.row := List.inj_on_of_nodup_map hnodup op.row_mem_rows op'.row_mem_rows h
  rw [← op.row_opcode, hrow, op'.row_opcode]

theorem opcode_eq_of_selects {op op' : Opcode} {cmd : BitVec 32} (h : op.row.selects cmd = true)
    (h' : op'.row.selects cmd = true) : op = op' :=
  Opcode.byte_injective ((opcodeByte_of_selects h).symm.trans (opcodeByte_of_selects h'))

theorem selects_iff_eq_of_selects {op : Opcode} {cmd : BitVec 32} (h : op.row.selects cmd = true) (op' : Opcode) :
    op'.row.selects cmd = true ↔ op = op' :=
  ⟨opcode_eq_of_selects h, fun heq => heq ▸ h⟩

theorem findRow_of_selects {op : Opcode} {cmd : BitVec 32} (h : op.row.selects cmd = true) :
    findRow cmd = some op.row := by
  cases hf : findRow cmd with
  | none => exact absurd h (List.find?_eq_none.mp hf _ op.row_mem_rows)
  | some r =>
    obtain ⟨op', rfl⟩ := exists_row_of_mem_rows (List.mem_of_find?_eq_some hf)
    rw [opcode_eq_of_selects h (List.find?_some (p := fun r : Row => r.selects cmd) hf)]

theorem findRow_eq_none_iff (cmd : BitVec 32) : findRow cmd = none ↔ ∀ op : Opcode, op.row.selects cmd = false := by
  rw [findRow, List.find?_eq_none]
  constructor
  · intro h op
    exact Bool.eq_false_of_not_eq_true (h _ op.row_mem_rows)
  · intro h r hr
    obtain ⟨op, rfl⟩ := exists_row_of_mem_rows hr
    simp [h op]

/-! ### The two ways to go on from step 1 of R66 -/

theorem decode_of_selects {op : Opcode} {cmd : BitVec 32} (h : op.row.selects cmd = true) (wdata : Limb) :
    decode cmd wdata = rangeCheck (buildInstr op cmd wdata) := by
  rw [decode, findRow_of_selects h]
  exact congrArg (fun o => rangeCheck (buildInstr o cmd wdata)) op.row_opcode

theorem decode_of_no_row {cmd : BitVec 32} (h : ∀ op : Opcode, op.row.selects cmd = false) (wdata : Limb) :
    decode cmd wdata = .illegal .noRow := by
  rw [decode, (findRow_eq_none_iff cmd).mpr h]

theorem selects_some_row_or_none (cmd : BitVec 32) :
    (∃ op : Opcode, op.row.selects cmd = true) ∨ ∀ op : Opcode, op.row.selects cmd = false := by
  by_cases h : ∃ op : Opcode, op.row.selects cmd = true
  · exact .inl h
  · exact .inr fun op => Bool.eq_false_of_not_eq_true fun hop => h ⟨op, hop⟩

theorem rangeCheck_of_wellFormed {i : Instr} (h : WellFormed i) : rangeCheck i = .legal i := by
  cases i with
  | ldl | rdl | slen =>
    have hle := of_decide_eq_true h
    exact if_neg (by omega)
  | _ => rfl

theorem rangeCheck_of_not_wellFormed {i : Instr} (h : ¬ WellFormed i) : ∃ why, rangeCheck i = .illegal why := by
  cases i with
  | ldl | rdl | slen =>
    have hgt := mt decide_eq_true h
    exact ⟨_, if_pos (by omega)⟩
  | _ => exact absurd rfl h

theorem rangeCheck_eq_legal_iff {i j : Instr} : rangeCheck i = .legal j ↔ j = i ∧ WellFormed i := by
  by_cases h : WellFormed i
  · simp [rangeCheck_of_wellFormed h, h, eq_comm]
  · obtain ⟨why, hwhy⟩ := rangeCheck_of_not_wellFormed h
    simp [hwhy, h]

theorem rangeCheck_illegal_iff {i : Instr} : (∃ why, rangeCheck i = .illegal why) ↔ ¬ WellFormed i := by
  refine ⟨?_, rangeCheck_of_not_wellFormed⟩
  rintro ⟨why, hwhy⟩ h
  rw [rangeCheck_of_wellFormed h] at hwhy
  cases hwhy

/-! ### The four steps of the decoder (R66) -/

/-- Steps 2 and 3 of R66 on the fields of the word. -/
theorem not_wellFormed_buildInstr_iff (op : Opcode) (cmd : BitVec 32) (wdata : Limb) :
    ¬ WellFormed (buildInstr op cmd wdata) ↔
      (op = .LDL ∨ op = .RDL) ∧ 4 < (field cmd 15 3).toNat ∨ op = .SLEN ∧ 64 < (field cmd 0 8).toNat := by
  cases op <;> simp [buildInstr, Instr.wellFormed]

theorem decode_illegal_iff (cmd : BitVec 32) (wdata : Limb) :
    (∃ why, decode cmd wdata = .illegal why) ↔
      ((∀ op : Opcode, op.row.selects cmd = false) ∨
       ((Opcode.LDL.row.selects cmd = true ∨ Opcode.RDL.row.selects cmd = true) ∧ 4 < (field cmd 15 3).toNat) ∨
       (Opcode.SLEN.row.selects cmd = true ∧ 64 < (field cmd 0 8).toNat)) := by
  obtain ⟨op, hop⟩ | hnone := selects_some_row_or_none cmd
  · have hsome : ¬ ∀ op : Opcode, op.row.selects cmd = false := fun h => by simp [h op] at hop
    rw [decode_of_selects hop, rangeCheck_illegal_iff, not_wellFormed_buildInstr_iff]
    simp only [selects_iff_eq_of_selects hop, hsome, false_or]
  · simp [decode_of_no_row hnone, hnone]

theorem decode_of_not_illegal {op : Opcode} {cmd : BitVec 32} {wdata : Limb} (hop : op.row.selects cmd = true)
    (h : ∀ why, decode cmd wdata ≠ .illegal why) : decode cmd wdata = .legal (buildInstr op cmd wdata) := by
  rw [decode_of_selects hop] at h ⊢
  exact rangeCheck_of_wellFormed (by_contra fun hwf =>
    let ⟨why, hwhy⟩ := rangeCheck_of_not_wellFormed hwf
    h why hwhy)

/-! ### `WDATA` where the command does not use it (R60) -/

theorem buildInstr_of_not_usesWdata {op : Opcode} (h : op.usesWdata = false) (cmd : BitVec 32) (x y : Limb) :
    buildInstr op cmd x = buildInstr op cmd y := by
  cases op with
  | LDZ | LDL | MULS => cases h
  | _ => rfl

theorem not_usesWdata_of_selects {op : Opcode} {cmd : BitVec 32} (h : op.row.selects cmd = true)
    (hldz : Opcode.LDZ.row.selects cmd = false) (hldl : Opcode.LDL.row.selects cmd = false)
    (hmuls : Opcode.MULS.row.selects cmd = false) : op.usesWdata = false := by
  cases op with
  | LDZ => cases hldz.symm.trans h
  | LDL => cases hldl.symm.trans h
  | MULS => cases hmuls.symm.trans h
  | _ => rfl

end Sys2Proof
end

section
/-! PROOFS. The encoder and the decoder are inverse to each other (30_encoding.md R62): the fields of an assembled word are
those it was assembled from, and a word that selects a row is assembled from its fields. -/

namespace Sys2Proof

/-! ### The fields of an assembled word -/

section Fields
variable (op : BitVec 8) (rd ra rb : Reg) (k : BitVec 3) (addr : BitVec 6) (imm8 : Byte)

/-- The fields of R62 do not overlap and fit in 32 bits. -/
theorem assembleWord_toNat :
    (assembleWord op rd ra rb k addr imm8).toNat =
      op.toNat * 2 ^ 24 + rd.val * 2 ^ 22 + ra.val * 2 ^ 20 + rb.val * 2 ^ 18 + k.toNat * 2 ^ 15 + addr.toNat * 2 ^ 8
        + imm8.toNat := by
  rw [assembleWord, BitVec.toNat_ofNat, Nat.mod_eq_of_lt (by omega)]

theorem field_toNat (cmd : BitVec 32) (lo width : Nat) : (field cmd lo width).toNat = cmd.toNat / 2 ^ lo % 2 ^ width := by
  rw [field, BitVec.extractLsb'_toNat, Nat.shiftRight_eq_div_pow]

theorem regField_val (cmd : BitVec 32) (lo : Nat) : (regField cmd lo).val = cmd.toNat / 2 ^ lo % 2 ^ 2 :=
  field_toNat cmd lo 2

@[simp] theorem regField_assembleWord_rd : regField (assembleWord op rd ra rb k addr imm8) 22 = rd :=
  Fin.ext (by rw [regField_val, assembleWord_toNat]; omega)

@[simp] theorem regField_assembleWord_ra : regField (assembleWord op rd ra rb k addr imm8) 20 = ra :=
  Fin.ext (by rw [regField_val, assembleWord_toNat]; omega)

@[simp] theorem regField_assembleWord_rb : regField (assembleWord op rd ra rb k addr imm8) 18 = rb :=
  Fin.ext (by rw [regField_val, assembleWord_toNat]; omega)

@[simp] theorem field_assembleWord_k : field (assembleWord op rd ra rb k addr imm8) 15 3 = k :=
  BitVec.eq_of_toNat_eq (by rw [field_toNat, assembleWord_toNat]; omega)

@[simp] theorem field_assembleWord_addr : field (assembleWord op rd ra rb k addr imm8) 8 6 = addr :=
  BitVec.eq_of_toNat_eq (by rw [field_toNat, assembleWord_toNat]; omega)

@[simp] theorem field_assembleWord_imm8 : field (assembleWord op rd ra rb k addr imm8) 0 8 = imm8 :=
  BitVec.eq_of_toNat_eq (by rw [field_toNat, assembleWord_toNat]; omega)

end Fields

/-- A word whose bit 14 is 0 is assembled from its fields. -/
theorem assembleWord_fields {cmd : BitVec 32} (h : field cmd 14 1 = 0) :
    assembleWord (field cmd 24 8) (regField cmd 22) (regField cmd 20) (regField cmd 18) (field cmd 15 3) (field cmd 8 6)
      (field cmd 0 8) = cmd := by
  have hgap : cmd.toNat / 2 ^ 14 % 2 ^ 1 = 0 := by rw [← field_toNat, h]; rfl
  apply BitVec.eq_of_toNat_eq
  rw [assembleWord_toNat]
  simp only [field_toNat, regField_val]
  omega

/-! ### From a command to its word and back (R62, R66) -/

theorem selects_encode (i : Instr) : i.opcode.row.selects (encode i).cmd = true := by
  cases i with
  | ldz rd wdata => exact Laws.InRow.ldz rd wdata
  | ldl rd k wdata => exact Laws.InRow.ldl rd k wdata
  | rdl ra k => exact Laws.InRow.rdl ra k
  | add rd ra rb => exact Laws.InRow.add rd ra rb
  | muls rd ra wdata => exact Laws.InRow.muls rd ra wdata
  | tobytes ra => exact Laws.InRow.tobytes ra
  | decode rd => exact Laws.InRow.decode rd
  | encode ra => exact Laws.InRow.encode ra
  | fchk ra => exact Laws.InRow.fchk ra
  | valid ra => exact Laws.InRow.valid ra
  | sb addr imm8 => exact Laws.InRow.sb addr imm8
  | lb addr => exact Laws.InRow.lb addr
  | slen imm8 => exact Laws.InRow.slen imm8
  | glen => exact Laws.InRow.glen

theorem buildInstr_encode (i : Instr) : buildInstr i.opcode (encode i).cmd (encode i).wdata = i := by
  cases i <;> simp [buildInstr, encode, Instr.opcode]

theorem decode_encode {i : Instr} (h : WellFormed i) : decode (encode i).cmd (encode i).wdata = .legal i := by
  rw [decode_of_selects (selects_encode i), buildInstr_encode, rangeCheck_of_wellFormed h]

@[simp] theorem buildInstr_opcode (op : Opcode) (cmd : BitVec 32) (wdata : Limb) :
    (buildInstr op cmd wdata).opcode = op := by
  cases op <;> rfl

/-- A field of a word is 0 where its row asks for 0 in every bit of the field (R62: a field the command does not use). -/
theorem field_eq_zero_of_selects {r : Row} {cmd : BitVec 32} (h : r.selects cmd = true) {lo width : Nat}
    (hmask : field r.mask lo width = BitVec.allOnes width) (hpattern : field r.pattern lo width = 0) :
    field cmd lo width = 0 :=
  (field_of_selects h hmask).trans hpattern

theorem regField_eq_zero_of_selects {r : Row} {cmd : BitVec 32} (h : r.selects cmd = true) {lo : Nat}
    (hmask : field r.mask lo 2 = BitVec.allOnes 2) (hpattern : field r.pattern lo 2 = 0) : regField cmd lo = 0 := by
  rw [regField, field_eq_zero_of_selects h hmask hpattern]
  rfl

/-- The row asks for 0 in every field the command does not use, so the word has the fields the encoder writes. -/
theorem encode_buildInstr_cmd {op : Opcode} {cmd : BitVec 32} (h : op.row.selects cmd = true) (wdata : Limb) :
    (encode (buildInstr op cmd wdata)).cmd = cmd := by
  have hgap : field cmd 14 1 = 0 := field_eq_zero_of_selects h (by cases op <;> rfl) (by cases op <;> rfl)
  have hword := assembleWord_fields hgap
  rw [opcodeByte_of_selects h] at hword
  cases op <;>
    (simp (disch := decide) only [field_eq_zero_of_selects h, regField_eq_zero_of_selects h] at hword
     exact hword)

/-- An operand the command does not use is 0 in the encoding (R69). -/
theorem encode_wdata_of_not_usesWdata {i : Instr} (h : i.opcode.usesWdata = false) : (encode i).wdata = 0 := by
  cases i with
  | ldz | ldl | muls => cases h
  | _ => rfl

theorem encode_buildInstr_wdata {op : Opcode} (h : op.usesWdata = true) (cmd : BitVec 32) (wdata : Limb) :
    (encode (buildInstr op cmd wdata)).wdata = wdata := by
  cases op with
  | LDZ | LDL | MULS => rfl
  | _ => cases h

/-- A legal word selects the row of its command's opcode, and the command has the field values of the word. -/
theorem decode_eq_legal_iff {cmd : BitVec 32} {wdata : Limb} {i : Instr} :
    decode cmd wdata = .legal i ↔
      i.opcode.row.selects cmd = true ∧ i = buildInstr i.opcode cmd wdata ∧ WellFormed i := by
  constructor
  · intro h
    obtain ⟨op, hop⟩ | hnone := selects_some_row_or_none cmd
    · rw [decode_of_selects hop, rangeCheck_eq_legal_iff] at h
      obtain ⟨rfl, hwf⟩ := h
      rw [buildInstr_opcode]
      exact ⟨hop, rfl, hwf⟩
    · rw [decode_of_no_row hnone] at h
      cases h
  · rintro ⟨hrow, hi, hwf⟩
    rw [decode_of_selects hrow, ← hi, rangeCheck_of_wellFormed hwf]

end Sys2Proof
end

section
/-! PROOFS. The statements about command words (30_encoding.md R60, R62, R65, R66). -/

namespace Sys2Proof.Machine

/-- Settles O1: the encoding lies in the command's row, and each field is read back from its place in the word. -/
theorem encodeThenDecodeGivesTheCommand : Obligations.EncodeThenDecodeGivesTheCommand :=
  fun _ h => decode_encode h

/-- Settles O2: the row fixes every bit that is in no field of the command, so the fields determine the word. -/
theorem aLegalWordIsTheEncodingOfItsCommand : Obligations.ALegalWordIsTheEncodingOfItsCommand := by
  intro cmd wdata i h
  obtain ⟨hrow, hi, hwf⟩ := decode_eq_legal_iff.mp h
  refine ⟨hwf, ?_, fun huse => ?_⟩
  · rw [hi]
    exact encode_buildInstr_cmd hrow wdata
  · rw [hi]
    exact encode_buildInstr_wdata huse cmd wdata

/-- Settles O3: the rows differ in the opcode byte, which every mask covers. -/
theorem theRowsAreDisjoint : Obligations.TheRowsAreDisjoint :=
  fun _ _ _ => opcode_eq_of_selects

/-- Settles O4: the ten legal words are encodings; the three illegal ones run through the decoder. -/
theorem theWordsOfTheSpecDecode : Obligations.TheWordsOfTheSpecDecode :=
  ⟨decode_encode (i := .ldz 2 0x3A) rfl, decode_encode (i := .ldl 1 4 0x80B566F686F7) rfl,
    decode_encode (i := .rdl 3 4) rfl, decode_encode (i := .add 3 2 1) rfl,
    decode_encode (i := .muls 2 3 0x9E3779B97F4A7C15) rfl, decode_encode (i := .tobytes 1) rfl,
    decode_encode (i := .decode 1) rfl, decode_encode (i := .valid 3) rfl, decode_encode (i := .sb 63 0xFF) rfl,
    decode_encode (i := .slen 64) rfl, rfl, rfl, rfl⟩

theorem runCommand_of_illegal {c : Command} (h : ∃ why, decode c.cmd c.wdata = .illegal why) (s : State) :
    runCommand c s = .next (s.respond .illegalCommand 0) := by
  obtain ⟨why, hwhy⟩ := h
  rw [runCommand, hwhy]
  rfl

theorem respond_illegalCommand_answeredIllegal (s : State) : AnsweredIllegal s (s.respond .illegalCommand 0) :=
  ⟨⟨rfl, fun _ => rfl, rfl⟩, rfl, rfl, rfl, rfl⟩

/-- Settles O5: past step 1 the word is its row's command, and the range checks refuse exactly the ill-formed ones. -/
theorem theDecoderFollowsItsFourSteps : Obligations.TheDecoderFollowsItsFourSteps := fun cmd wdata =>
  ⟨decode_illegal_iff cmd wdata, fun _ => decode_of_not_illegal, fun s h =>
    ⟨_, runCommand_of_illegal h s, respond_illegalCommand_answeredIllegal s⟩⟩

/-- Settles O7: the decoder reads the same from the word under either operand. -/
theorem unusedWdataHasNoEffect : Obligations.UnusedWdataHasNoEffect := by
  intro cmd x y s hldz hldl hmuls
  have hdecode : decode cmd x = decode cmd y := by
    obtain ⟨op, hop⟩ | hnone := selects_some_row_or_none cmd
    · have huse : op.usesWdata = false := not_usesWdata_of_selects hop hldz hldl hmuls
      rw [decode_of_selects hop, decode_of_selects hop, buildInstr_of_not_usesWdata huse cmd x y]
    · rw [decode_of_no_row hnone, decode_of_no_row hnone]
  simp only [runCommand, hdecode]

end Sys2Proof.Machine
end

section
/-! PROOFS. The count of the legal words (30_encoding.md R67): each is the encoding of one opcode with one choice of field
values. -/

namespace Sys2Proof

/-- The field values a well-formed command of the opcode can have, `WDATA` left out (R63, R64). -/
abbrev Opcode.Fields : Opcode → Type
  | .LDZ | .TOBYTES | .DECODE | .ENCODE | .FCHK | .VALID => Reg
  | .LDL | .RDL => Reg × { k : BitVec 3 // k.toNat ≤ 4 }
  | .ADD => Reg × Reg × Reg
  | .MULS => Reg × Reg
  | .SB => BitVec 6 × Byte
  | .LB => BitVec 6
  | .SLEN => { imm8 : Byte // imm8.toNat ≤ 64 }
  | .GLEN => Unit

/-- The command with the given field values and `WDATA` 0. -/
def Opcode.command : (op : Opcode) → op.Fields → Instr
  | .LDZ, rd => .ldz rd 0
  | .LDL, (rd, k) => .ldl rd k.val 0
  | .RDL, (ra, k) => .rdl ra k.val
  | .ADD, (rd, ra, rb) => .add rd ra rb
  | .MULS, (rd, ra) => .muls rd ra 0
  | .TOBYTES, ra => .tobytes ra
  | .DECODE, rd => .decode rd
  | .ENCODE, ra => .encode ra
  | .FCHK, ra => .fchk ra
  | .VALID, ra => .valid ra
  | .SB, (addr, imm8) => .sb addr imm8
  | .LB, addr => .lb addr
  | .SLEN, imm8 => .slen imm8.val
  | .GLEN, () => .glen

/-- The column of counts of R67. -/
def Opcode.legalWords : Opcode → Nat
  | .LDZ | .TOBYTES | .DECODE | .ENCODE | .FCHK | .VALID => 4
  | .LDL | .RDL => 20
  | .ADD => 64
  | .MULS => 16
  | .SB => 16384
  | .LB => 64
  | .SLEN => 65
  | .GLEN => 1

theorem card_fields (op : Opcode) : Nat.card op.Fields = op.legalWords := by
  have hbits (n : Nat) : Fintype.card (BitVec n) = 2 ^ n := FinEnum.card_eq_fintypeCard.symm
  have hk : Fintype.card { k : BitVec 3 // k.toNat ≤ 4 } = 5 := by decide
  have himm : Fintype.card { imm8 : Byte // imm8.toNat ≤ 64 } = 65 := by decide
  cases op <;> simp [Opcode.legalWords, Nat.card_eq_fintype_card, hk, himm, hbits]

theorem command_wellFormed (op : Opcode) (f : op.Fields) : WellFormed (op.command f) := by
  cases op with
  | LDL | RDL => exact decide_eq_true f.2.property
  | SLEN => exact decide_eq_true f.property
  | _ => rfl

theorem command_opcode (op : Opcode) (f : op.Fields) : (op.command f).opcode = op := by
  cases op <;> rfl

theorem encode_command_wdata (op : Opcode) (f : op.Fields) : (encode (op.command f)).wdata = 0 := by
  cases op <;> rfl

theorem command_injective (op : Opcode) : Function.Injective op.command := by
  intro f g h
  cases op <;> simp_all [Opcode.command, Prod.ext_iff, Subtype.ext_iff]

theorem exists_command {i : Instr} (hwf : WellFormed i) (hwdata : (encode i).wdata = 0) :
    ∃ f : i.opcode.Fields, i.opcode.command f = i := by
  cases i with
  | ldz rd wdata => cases hwdata; exact ⟨rd, rfl⟩
  | ldl rd k wdata => cases hwdata; exact ⟨(rd, ⟨k, of_decide_eq_true hwf⟩), rfl⟩
  | rdl ra k => exact ⟨(ra, ⟨k, of_decide_eq_true hwf⟩), rfl⟩
  | add rd ra rb => exact ⟨(rd, ra, rb), rfl⟩
  | muls rd ra wdata => cases hwdata; exact ⟨(rd, ra), rfl⟩
  | tobytes r | decode r | encode r | fchk r | valid r => exact ⟨r, rfl⟩
  | sb addr imm8 => exact ⟨(addr, imm8), rfl⟩
  | lb addr => exact ⟨addr, rfl⟩
  | slen imm8 => exact ⟨⟨imm8, of_decide_eq_true hwf⟩, rfl⟩
  | glen => exact ⟨(), rfl⟩

/-- The words the decoder accepts. -/
abbrev LegalWord := { cmd : BitVec 32 // ∃ i, decode cmd 0 = .legal i }

theorem decode_encode_command (op : Opcode) (f : op.Fields) :
    decode (encode (op.command f)).cmd 0 = .legal (op.command f) :=
  encode_command_wdata op f ▸ decode_encode (command_wellFormed op f)

/-- The legal word with the given opcode and field values. -/
def legalWord (x : Σ op : Opcode, op.Fields) : LegalWord :=
  ⟨(encode (x.1.command x.2)).cmd, _, decode_encode_command x.1 x.2⟩

/-- The decoder reads opcode and fields back from the word. -/
theorem legalWord_injective : Function.Injective legalWord := by
  rintro ⟨op, f⟩ ⟨op', g⟩ h
  have hi : op.command f = op'.command g := by
    have hword : (encode (op.command f)).cmd = (encode (op'.command g)).cmd := congrArg Subtype.val h
    have hdecode := decode_encode_command op f
    rw [hword, decode_encode_command op' g] at hdecode
    exact (Decoded.legal.inj hdecode).symm
  obtain rfl : op = op' := by rw [← command_opcode op f, hi, command_opcode op' g]
  rw [command_injective op hi]

/-- A legal word is the encoding of its command, which has field values. -/
theorem legalWord_surjective : Function.Surjective legalWord := by
  rintro ⟨cmd, i, h⟩
  obtain ⟨hwf, hcmd, huse⟩ := Machine.aLegalWordIsTheEncodingOfItsCommand cmd 0 i h
  have hwdata : (encode i).wdata = 0 := by
    cases hu : i.opcode.usesWdata with
    | true => exact huse hu
    | false => exact encode_wdata_of_not_usesWdata hu
  obtain ⟨f, hf⟩ := exists_command hwf hwdata
  exact ⟨⟨i.opcode, f⟩, Subtype.ext ((congrArg (fun j => (encode j).cmd) hf).trans hcmd)⟩

/-- Settles O6: the legal words are in bijection with opcode and field values, counted row by row. -/
theorem thereAre16658LegalWords : Obligations.ThereAre16658LegalWords := by
  let : Fintype Opcode := Fintype.ofList (rows.map Row.opcode) fun op =>
    List.mem_map.mpr ⟨op.row, op.row_mem_rows, op.row_opcode⟩
  have (op : Opcode) : Finite op.Fields := by cases op <;> exact inferInstance
  calc Nat.card LegalWord
    _ = Nat.card (Σ op : Opcode, op.Fields) :=
      (Nat.card_congr (Equiv.ofBijective legalWord ⟨legalWord_injective, legalWord_surjective⟩)).symm
    _ = ∑ op : Opcode, op.legalWords := by simp only [Nat.card_sigma, card_fields]
    _ = 16658 := by decide

end Sys2Proof
end

section
/-! PROOFS. The pseudo-instructions `LDW` and `STR` of 30_encoding.md R70: what the commands of an expansion leave, one after
the other. -/

namespace Sys2Proof.Machine

/-! ### Commands one after the other -/

theorem execAll_cons {i : Instr} {s t : State} (h : exec i s = .next t) (is : List Instr) :
    execAll (i :: is) s = execAll is t := by
  rw [execAll, h]

theorem execAll_append {l : List Instr} {s t : State} (h : execAll l s = .next t) (l' : List Instr) :
    execAll (l ++ l') s = execAll l' t := by
  induction l generalizing s with
  | nil => cases h; rfl
  | cons i l ih =>
    cases hi : exec i s with
    | next u =>
      rw [execAll_cons hi] at h
      rw [List.cons_append, execAll_cons hi, ih h]
    | fault | refused => simp [execAll, hi] at h

/-! ### `LDW` -/

/-- The state `LDW` leaves: the five writes and their responses in order. -/
def ldwState (rd : Reg) (l0 l1 l2 l3 l4 : Limb) (s : State) : State :=
  s |>.writeReg rd (fromLimbs l0 0 0 0 0) |>.respond .ok 0
    |>.writeLimb rd 1 l1 |>.respond .ok 0
    |>.writeLimb rd 2 l2 |>.respond .ok 0
    |>.writeLimb rd 3 l3 |>.respond .ok 0
    |>.writeLimb rd 4 l4 |>.respond .ok 0

theorem ldwState_holds (rd : Reg) (l0 l1 l2 l3 l4 : Limb) (s : State) :
    (ldwState rd l0 l1 l2 l3 l4 s).Holds rd (fromLimbs l0 l1 l2 l3 l4) := by
  intro k
  have hldz : (s.writeReg rd (fromLimbs l0 0 0 0 0)).cell rd k = ⟨#v[l0, 0, 0, 0, 0][k], true⟩ := by
    rw [State.writeReg_holds, limb_fromLimbs]
  rw [limb_fromLimbs]
  simp only [ldwState, State.cell_respond, State.writeLimb_cell, hldz]
  fin_cases k <;> rfl

theorem ldwState_sameOtherRegs (rd : Reg) (l0 l1 l2 l3 l4 : Limb) (s : State) :
    SameOtherRegs rd s (ldwState rd l0 l1 l2 l3 l4 s) := by
  intro q hq
  simp only [ldwState, State.respond_w, State.writeLimb_reg, State.writeReg_reg, if_neg hq]

/-- Settles O14: `LDZ` writes limb 0 and clears the rest, each `LDL` then writes its limb and no other. -/
theorem ldwBuildsTheValue : Obligations.LdwBuildsTheValue := by
  intro rd l0 l1 l2 l3 l4 s
  refine ⟨_, ldwState rd l0 l1 l2 l3 l4 s, rfl, rfl, ldwState_holds rd l0 l1 l2 l3 l4 s,
    ldwState_sameOtherRegs rd l0 l1 l2 l3 l4 s, fun _ => rfl, rfl, ?_⟩
  simp [ldwState, List.replicate]

/-! ### `STR` -/

/-- An address of `BUF` goes through the address field unchanged. -/
theorem bufferAddress_ofNat {addr : Nat} (h : addr < 64) : bufferAddress (BitVec.ofNat 6 addr) = addr := by
  rw [bufferAddress, BitVec.toNat_ofNat, Nat.mod_eq_of_lt (by omega)]

theorem exec_sb_ofNat {addr : Nat} (h : addr < 64) (c : Byte) (s : State) :
    exec (.sb (BitVec.ofNat 6 addr) c) s = .next ((s.memWrite addr [c]).respond .ok 0) := by
  rw [exec, execSb, bufferAddress_ofNat h, State.respOk_eq]

theorem execAll_storeChars (chars : List Byte) {addr : Nat} (s : State) (h : addr + chars.length ≤ 64) :
    ∃ t, execAll (storeChars addr chars) s = .next t ∧ t.buf = s.buf.writeBytes addr chars ∧ t.w = s.w ∧
      t.responses = s.responses ++ List.replicate chars.length ⟨.ok, 0⟩ := by
  induction chars generalizing addr s with
  | nil => exact ⟨s, rfl, rfl, rfl, by simp⟩
  | cons c rest ih =>
    rw [List.length_cons] at h
    obtain ⟨t, hrun, hbuf, hw, hresp⟩ := ih (addr := addr + 1) ((s.memWrite addr [c]).respond .ok 0) (by omega)
    refine ⟨t, ?_, hbuf, hw, ?_⟩
    · rw [storeChars, execAll_cons (exec_sb_ofNat (by omega) c s), hrun]
    · simp [hresp, List.replicate_succ]

theorem exec_slen_ofNat {n : Nat} (h : n ≤ 64) (s : State) :
    exec (.slen (BitVec.ofNat 8 n)) s = .next ((s.setLen (BitVec.ofNat 7 n)).respond .ok 0) := by
  have hn : (BitVec.ofNat 8 n).toNat = n := by rw [BitVec.toNat_ofNat]; omega
  simp [exec, execSlen, lengthOperand?, Config.bufSize, hn, h]

theorem expand_str {chars : List Byte} (h : chars.length ≤ 64) :
    expand (.str chars) = some (storeChars 0 chars ++ [.slen (BitVec.ofNat 8 chars.length)]) := if_pos h

theorem State.memWrite_holdsBytes (s : State) {addr : Nat} {b : List Byte} (h : addr + b.length ≤ 64) :
    (s.memWrite addr b).HoldsBytes addr b := by
  intro i hi
  rw [State.memWrite_buf, Memory.stored_writeBytes _ _ _ _ h, if_pos (by omega)]
  simp [hi]

/-- Settles O46: the `SB` commands write the characters in order, `SLEN` then sets the length. -/
theorem strPresentsTheString : Obligations.StrPresentsTheString := by
  intro chars s h
  have hfits : 0 + chars.length ≤ 64 := by omega
  obtain ⟨t, hrun, hbuf, hw, hresp⟩ := execAll_storeChars chars s hfits
  have hlast := execAll_cons (exec_slen_ofNat h t) []
  refine ⟨_, _, expand_str h, (execAll_append hrun _).trans hlast, ?_, ?_, ?_, hw, ?_⟩
  · intro i hi
    rw [State.respond_buf, State.setLen_buf, hbuf]
    exact s.memWrite_holdsBytes hfits i hi
  · intro a ha
    rw [State.respond_buf, State.setLen_buf, hbuf]
    exact s.memWrite_sameBytesOutside hfits a (by omega)
  · rw [State.respond_len, State.setLen_len, BitVec.toNat_ofNat]
    omega
  · simp [hresp, List.replicate_succ']

end Sys2Proof.Machine
end

section
/-! PROOFS. The limb access commands (40_limbs.md R80 to R82): the word of a command with fields in or out of range, the
limb a field selects, and what `LDZ`, `LDL` and `RDL` leave. -/

namespace Sys2Proof

/-! ### The words of the three commands -/

/-- The decoder reads the command back from its word up to the range checks, whatever an operand it does not use. -/
theorem decode_encode_cmd {i : Instr} {wdata : Limb} (h : i.opcode.usesWdata = true → (encode i).wdata = wdata) :
    decode (encode i).cmd wdata = rangeCheck i := by
  rw [decode_of_selects (selects_encode i)]
  cases huse : i.opcode.usesWdata with
  | true => rw [← h huse, buildInstr_encode]
  | false => rw [buildInstr_of_not_usesWdata huse _ wdata (encode i).wdata, buildInstr_encode]

/-- The word of R62 with the fields of `LDZ`; the fields the command does not use add 0. -/
theorem encode_ldz_cmd (rd : Reg) (x : Limb) :
    (encode (.ldz rd x)).cmd = BitVec.ofNat 32 (0x01000000 + rd.val * 2 ^ 22) := by
  simp [encode, assembleWord]

theorem encode_ldl_cmd (rd : Reg) (k : BitVec 3) (x : Limb) :
    (encode (.ldl rd k x)).cmd = BitVec.ofNat 32 (0x02000000 + rd.val * 2 ^ 22 + k.toNat * 2 ^ 15) := by
  simp [encode, assembleWord]

theorem encode_rdl_cmd (ra : Reg) (k : BitVec 3) :
    (encode (.rdl ra k)).cmd = BitVec.ofNat 32 (0x03000000 + ra.val * 2 ^ 20 + k.toNat * 2 ^ 15) := by
  simp [encode, assembleWord]

theorem decode_ldz_word (rd : Reg) (x : Limb) :
    decode (BitVec.ofNat 32 (0x01000000 + rd.val * 2 ^ 22)) x = rangeCheck (.ldz rd x) := by
  rw [← encode_ldz_cmd rd x]
  exact decode_encode_cmd fun _ => rfl

theorem decode_ldl_word (rd : Reg) (k : BitVec 3) (x : Limb) :
    decode (BitVec.ofNat 32 (0x02000000 + rd.val * 2 ^ 22 + k.toNat * 2 ^ 15)) x = rangeCheck (.ldl rd k x) := by
  rw [← encode_ldl_cmd rd k x]
  exact decode_encode_cmd fun _ => rfl

theorem decode_rdl_word (ra : Reg) (k : BitVec 3) (x : Limb) :
    decode (BitVec.ofNat 32 (0x03000000 + ra.val * 2 ^ 20 + k.toNat * 2 ^ 15)) x = rangeCheck (.rdl ra k) := by
  rw [← encode_rdl_cmd ra k]
  exact decode_encode_cmd nofun

end Sys2Proof

namespace Sys2Proof.Machine

/-! ### The limb a field selects -/

/-- A limb index goes through the three bits of the field unchanged. -/
theorem limbField_toNat (i : LimbIndex) : (BitVec.ofNat 3 i.val).toNat = i.val := by
  rw [BitVec.toNat_ofNat]
  omega

theorem limbIndex?_ofNat (i : LimbIndex) : limbIndex? (BitVec.ofNat 3 i.val) = some i := by
  have hlt : (BitVec.ofNat 3 i.val).toNat < 5 := by rw [limbField_toNat]; exact i.isLt
  rw [limbIndex?, dif_pos hlt]
  exact congrArg some (Fin.ext (limbField_toNat i))

theorem limbIndex?_eq_none {k : BitVec 3} (h : 4 < k.toNat) : limbIndex? k = none := dif_neg (by omega)

theorem ldl_wellFormed_iff {rd : Reg} {k : BitVec 3} {x : Limb} : WellFormed (.ldl rd k x) ↔ k.toNat ≤ 4 :=
  decide_eq_true_iff

theorem rdl_wellFormed_iff {ra : Reg} {k : BitVec 3} : WellFormed (.rdl ra k) ↔ k.toNat ≤ 4 := decide_eq_true_iff

/-! ### What the three commands leave -/

theorem exec_ldz (rd : Reg) (x : Limb) (s : State) :
    exec (.ldz rd x) s = .next ((s.writeReg rd (fromLimbs x 0 0 0 0)).respond .ok 0) := rfl

theorem exec_ldl_of_some {k : BitVec 3} {i : LimbIndex} (h : limbIndex? k = some i) (rd : Reg) (x : Limb) (s : State) :
    exec (.ldl rd k x) s = .next ((s.writeLimb rd i x).respond .ok 0) := by
  rw [exec, execLdl, h]
  rfl

theorem exec_ldl_of_none {k : BitVec 3} (h : limbIndex? k = none) (rd : Reg) (x : Limb) (s : State) :
    exec (.ldl rd k x) s = .next (s.respond .illegalCommand 0) := by
  rw [exec, execLdl, h]
  rfl

theorem exec_rdl_of_some {k : BitVec 3} {i : LimbIndex} (h : limbIndex? k = some i) (ra : Reg) (s : State) :
    exec (.rdl ra k) s = .next (s.respond .ok (s.readLimb .a ra i)) := by
  rw [exec, execRdl, h]
  rfl

theorem exec_rdl_of_none {k : BitVec 3} (h : limbIndex? k = none) (ra : Reg) (s : State) :
    exec (.rdl ra k) s = .next (s.respond .illegalCommand 0) := by
  rw [exec, execRdl, h]
  rfl

theorem limb_zext_of_ne_zero (x : Limb) {k : LimbIndex} (h : k ≠ 0) : limb (fromLimbs x 0 0 0 0) k = 0 := by
  rw [limb_fromLimbs]
  fin_cases k
  · exact absurd rfl h
  all_goals rfl

/-- Settles O11: the register holds the value whose limb 0 is `WDATA` and whose other limbs are zero. -/
theorem ldzLoadsAZeroExtendedLimb : Obligations.LdzLoadsAZeroExtendedLimb := by
  intro rd x
  refine ⟨decode_ldz_word rd x, fun s => ⟨_, exec_ldz rd x s, ?_, fun k hk => ?_, s.writeReg_sameOtherRegs rd _,
    fun _ => rfl, rfl, rfl, rfl, rfl, rfl⟩⟩
  · rw [State.cell_respond, State.writeReg_holds, limb_fromLimbs]
    rfl
  · rw [State.cell_respond, State.writeReg_holds, limb_zext_of_ne_zero x hk]

/-- Settles O12: a field up to 4 selects the limb that is written; above 4 it selects none and the word is illegal. -/
theorem ldlLoadsOneLimb : Obligations.LdlLoadsOneLimb := by
  refine ⟨fun rd i x => ⟨?_, fun s => ?_⟩, fun rd k x s hk => ⟨?_, ?_⟩⟩
  · have hword := decode_ldl_word rd (BitVec.ofNat 3 i.val) x
    have hwf : WellFormed (.ldl rd (BitVec.ofNat 3 i.val) x) := ldl_wellFormed_iff.mpr (by rw [limbField_toNat]; omega)
    rwa [limbField_toNat, rangeCheck_of_wellFormed hwf] at hword
  · refine ⟨_, exec_ldl_of_some (limbIndex?_ofNat i) rd x s, ?_, fun k hk => ?_, s.writeLimb_sameOtherRegs rd i x,
      fun _ => rfl, rfl, rfl, rfl, rfl, rfl⟩
    · rw [State.cell_respond, State.writeLimb_cell, if_pos ⟨rfl, rfl⟩]
    · rw [State.cell_respond, State.writeLimb_cell, if_neg fun ⟨_, h⟩ => hk h]
  · rw [decode_ldl_word]
    exact rangeCheck_of_not_wellFormed (by rw [ldl_wellFormed_iff]; omega)
  · exact ⟨_, exec_ldl_of_none (limbIndex?_eq_none hk) rd x s, respond_illegalCommand_answeredIllegal s⟩

/-- Settles O13: a field up to 4 selects the limb that is reported; above 4 it selects none and the word is illegal. -/
theorem rdlReadsOneLimb : Obligations.RdlReadsOneLimb := by
  refine ⟨fun ra i => ⟨fun x => ?_, fun s => ?_⟩, fun ra k x s hk => ⟨?_, ?_⟩⟩
  · have hword := decode_rdl_word ra (BitVec.ofNat 3 i.val) x
    have hwf : WellFormed (.rdl ra (BitVec.ofNat 3 i.val)) := rdl_wellFormed_iff.mpr (by rw [limbField_toNat]; omega)
    rwa [limbField_toNat, rangeCheck_of_wellFormed hwf] at hword
  · exact ⟨_, s.readLimb .a ra i, exec_rdl_of_some (limbIndex?_ofNat i) ra s, ⟨rfl, rfl, rfl⟩,
      State.readLimb_written, ⟨rfl, fun _ => rfl, rfl⟩, rfl⟩
  · rw [decode_rdl_word]
    exact rangeCheck_of_not_wellFormed (by rw [rdl_wellFormed_iff]; omega)
  · exact ⟨_, exec_rdl_of_none (limbIndex?_eq_none hk) ra s, respond_illegalCommand_answeredIllegal s⟩

end Sys2Proof.Machine
end

section
/-! PROOFS. The 320-bit ALU (41_alu.md R90 to R96): `add320` and `muls320` are the sum and the product of 320-bit words, the
limb-by-limb datapaths compute them, and `ADD` and `MULS` write them. -/

namespace Sys2Proof.Machine

set_option exponentiation.threshold 512

/-! ### Sum and product modulo `2^320` (R90, R91, R93, R95) -/

theorem add320_toNat (x y : U320) : (add320 x y).toNat = (x.toNat + y.toNat) % 2 ^ 320 := BitVec.toNat_ofNat _ _

theorem muls320_toNat (x : U320) (s : Limb) : (muls320 x s).toNat = x.toNat * s.toNat % 2 ^ 320 :=
  BitVec.toNat_ofNat _ _

/-- `add320` is the addition of 320-bit words, so their ring laws are its laws. -/
theorem add320_eq_add (x y : U320) : add320 x y = x + y :=
  BitVec.eq_of_toNat_eq ((add320_toNat x y).trans (BitVec.toNat_add x y).symm)

/-- `muls320` is the product of 320-bit words, the scalar extended with zeros. -/
theorem muls320_eq_mul (x : U320) (s : Limb) : muls320 x s = x * s.setWidth 320 := by
  apply BitVec.eq_of_toNat_eq
  rw [muls320_toNat, BitVec.toNat_mul, BitVec.toNat_setWidth_of_le (by omega)]

theorem toNat_add_div_le_one (x y : U320) : (x.toNat + y.toNat) / 2 ^ 320 ≤ 1 := by
  have hx := x.isLt
  have hy := y.isLt
  exact Nat.le_of_lt_succ (Nat.div_lt_of_lt_mul (by omega))

theorem toNat_mul_lt (x : U320) (s : Limb) : x.toNat * s.toNat < 2 ^ 320 * 2 ^ 64 :=
  Nat.mul_lt_mul'' x.isLt s.isLt

/-- Settles O16: addition of 320-bit words is commutative and associative with 0 neutral, and `2^320 - x` is `-x`. -/
theorem additionIsCommutativeAndAssociative : Obligations.AdditionIsCommutativeAndAssociative := by
  simp only [Obligations.AdditionIsCommutativeAndAssociative, add320_eq_add]
  refine ⟨BitVec.add_comm, BitVec.add_assoc, add_zero, fun x => ?_⟩
  change x + -x = 0
  exact BitVec.add_right_neg x

/-- Settles O18: the factors are below `2^320` and `2^64`. -/
theorem theMultiplierMultipliesModulo : Obligations.TheMultiplierMultipliesModulo := by
  intro x s
  have hlt := toNat_mul_lt x s
  exact ⟨muls320_toNat x s, by rwa [← Nat.pow_add] at hlt, Nat.div_lt_of_lt_mul hlt⟩

/-- Settles O20: the laws are those of the product of 320-bit words; a product below `2^320` is its own remainder. -/
theorem multiplicationDistributesOverAddition : Obligations.MultiplicationDistributesOverAddition := by
  refine ⟨fun x => ?_, fun x => ?_, fun s => ?_, fun x y s => ?_, fun x s t => ?_, fun x s h => ?_⟩
  · rw [muls320_eq_mul]
    exact mul_zero x
  · rw [muls320_eq_mul]
    exact mul_one x
  · rw [muls320_eq_mul]
    exact zero_mul _
  · simp only [add320_eq_add, muls320_eq_mul, add_mul]
  · simp only [muls320_eq_mul]
    exact mul_right_comm x _ _
  · rw [muls320_toNat, Nat.mod_eq_of_lt h]

/-! ### A chain of five carries -/

theorem toNat_eq_limb_sum (v : U320) :
    v.toNat = (limb v 0).toNat + (limb v 1).toNat * 2 ^ 64 + (limb v 2).toNat * 2 ^ 128 + (limb v 3).toNat * 2 ^ 192
      + (limb v 4).toNat * 2 ^ 256 := by
  rw [← fromLimbs_toNat, fromLimbs_limb]

/-- What a step puts out: its result limb, and its carry out one limb higher. -/
def stepTotal (p : Limb × Nat) : Nat := p.1.toNat + p.2 * 2 ^ 64

/-- Where every step puts out its column `t i` and the carry of the step before it, the carries cancel: the five result
limbs and the carry that is dropped make up the five columns. -/
theorem fromLimbs_add_dropped_carry {p0 p1 p2 p3 p4 : Limb × Nat} {t0 t1 t2 t3 t4 : Nat}
    (h0 : stepTotal p0 = t0) (h1 : stepTotal p1 = t1 + p0.2) (h2 : stepTotal p2 = t2 + p1.2)
    (h3 : stepTotal p3 = t3 + p2.2) (h4 : stepTotal p4 = t4 + p3.2) :
    (fromLimbs p0.1 p1.1 p2.1 p3.1 p4.1).toNat + p4.2 * 2 ^ 320 =
      t0 + t1 * 2 ^ 64 + t2 * 2 ^ 128 + t3 * 2 ^ 192 + t4 * 2 ^ 256 := by
  rw [fromLimbs_toNat]
  unfold stepTotal at h0 h1 h2 h3 h4
  omega

/-- A 320-bit result and what is dropped above it are the remainder and the quotient of their total. -/
theorem eq_ofNat_and_eq_div {r : U320} {c n : Nat} (h : r.toNat + c * 2 ^ 320 = n) :
    r = BitVec.ofNat 320 n ∧ c = n / 2 ^ 320 := by
  subst h
  constructor
  · apply BitVec.eq_of_toNat_eq
    rw [BitVec.toNat_ofNat, Nat.add_mul_mod_self_right, Nat.mod_eq_of_lt r.isLt]
  · rw [Nat.add_mul_div_right _ _ (by positivity), Nat.div_eq_of_lt r.isLt, Nat.zero_add]

/-! ### The ripple-carry adder (R90) -/

theorem stepTotal_addStep (a b : Limb) (c : Nat) : stepTotal (addStep a b c) = a.toNat + b.toNat + c := by
  rw [stepTotal, addStep, BitVec.toNat_ofNat]
  exact Nat.mod_add_div' _ _

/-- The adder loses nothing but the carry it drops. -/
theorem rippleAdd_exact (x y : U320) :
    (rippleAdd x y).1.toNat + (rippleAdd x y).2 * 2 ^ 320 = x.toNat + y.toNat := by
  have hchain := fromLimbs_add_dropped_carry (stepTotal_addStep (limb x 0) (limb y 0) 0)
    (stepTotal_addStep (limb x 1) (limb y 1) _) (stepTotal_addStep (limb x 2) (limb y 2) _)
    (stepTotal_addStep (limb x 3) (limb y 3) _) (stepTotal_addStep (limb x 4) (limb y 4) _)
  rw [toNat_eq_limb_sum x, toNat_eq_limb_sum y]
  exact hchain.trans (by ring)

/-- Settles O15: the carries of the loop cancel, so its result and its last carry are remainder and quotient of the sum. -/
theorem theAdderAddsModulo : Obligations.TheAdderAddsModulo := by
  intro x y
  obtain ⟨hsum, hcarry⟩ := eq_ofNat_and_eq_div (rippleAdd_exact x y)
  exact ⟨add320_toNat x y, Prod.ext hsum hcarry, toNat_add_div_le_one x y⟩

/-! ### The two carry chains of the multiplier (R94) -/

/-- The product of a value and a scalar, limb by limb. -/
theorem toNat_mul_eq_limb_products (x : U320) (s : Limb) :
    x.toNat * s.toNat = (limb x 0).toNat * s.toNat + (limb x 1).toNat * s.toNat * 2 ^ 64
      + (limb x 2).toNat * s.toNat * 2 ^ 128 + (limb x 3).toNat * s.toNat * 2 ^ 192
      + (limb x 4).toNat * s.toNat * 2 ^ 256 := by
  rw [toNat_eq_limb_sum x]
  ring

theorem stepTotal_mulStep (a s : Limb) (carry : Nat) : stepTotal (mulStep a s carry) = a.toNat * s.toNat + carry := by
  rw [stepTotal, mulStep, BitVec.toNat_ofNat]
  omega

/-- A 64-bit carry in gives a 64-bit carry out: `(2^64 - 1)^2 + (2^64 - 1)` is below `2^128`. -/
theorem mulStep_carry_lt (a s : Limb) {carry : Nat} (h : carry < 2 ^ 64) : (mulStep a s carry).2 < 2 ^ 64 := by
  have htotal := stepTotal_mulStep a s carry
  have hprod : a.toNat * s.toNat ≤ (2 ^ 64 - 1) * (2 ^ 64 - 1) :=
    Nat.mul_le_mul (Nat.le_sub_one_of_lt a.isLt) (Nat.le_sub_one_of_lt s.isLt)
  rw [stepTotal] at htotal
  omega

theorem mulChain_carries_lt (x : U320) (s : Limb) : ∀ c ∈ (mulChain x s).2, c < 2 ^ 64 := by
  have h0 := mulStep_carry_lt (limb x 0) s (carry := 0) (by norm_num)
  have h1 := mulStep_carry_lt (limb x 1) s h0
  have h2 := mulStep_carry_lt (limb x 2) s h1
  have h3 := mulStep_carry_lt (limb x 3) s h2
  have h4 := mulStep_carry_lt (limb x 4) s h3
  simp only [mulChain, List.forall_mem_cons]
  exact ⟨h0, h1, h2, h3, h4, nofun⟩

/-- The loop's result is the product, and its last carry is what the product has above bit 319. -/
theorem mulChain_eq (x : U320) (s : Limb) :
    (mulChain x s).1 = muls320 x s ∧ (mulChain x s).2.getLast? = some (x.toNat * s.toNat / 2 ^ 320) := by
  have hchain := fromLimbs_add_dropped_carry (stepTotal_mulStep (limb x 0) s 0) (stepTotal_mulStep (limb x 1) s _)
    (stepTotal_mulStep (limb x 2) s _) (stepTotal_mulStep (limb x 3) s _) (stepTotal_mulStep (limb x 4) s _)
  rw [Nat.add_zero, ← toNat_mul_eq_limb_products] at hchain
  obtain ⟨hresult, hcarry⟩ := eq_ofNat_and_eq_div hchain
  exact ⟨hresult, congrArg some hcarry⟩

theorem stepTotal_lateStep (lo hiBefore k : Nat) : stepTotal (lateStep lo hiBefore k) = lo + hiBefore + k := by
  rw [stepTotal, lateStep, BitVec.toNat_ofNat]
  exact Nat.mod_add_div' _ _

/-- `lo_i` of R94: the low half of the product of limb `i` and the scalar. -/
def lowHalf (x : U320) (s : Limb) (i : LimbIndex) : Nat := (limb x i).toNat * s.toNat % 2 ^ 64

/-- `hi_i` of R94: the high half of the product of limb `i` and the scalar. -/
def highHalf (x : U320) (s : Limb) (i : LimbIndex) : Nat := (limb x i).toNat * s.toNat / 2 ^ 64

theorem lowHalf_add_highHalf (x : U320) (s : Limb) (i : LimbIndex) :
    lowHalf x s i + highHalf x s i * 2 ^ 64 = (limb x i).toNat * s.toNat :=
  Nat.mod_add_div' _ _

/-- Each low half with the high half before it, and the last high half above them, make up the product. -/
theorem sum_halves_eq_toNat_mul (x : U320) (s : Limb) :
    lowHalf x s 0 + (lowHalf x s 1 + highHalf x s 0) * 2 ^ 64 + (lowHalf x s 2 + highHalf x s 1) * 2 ^ 128
      + (lowHalf x s 3 + highHalf x s 2) * 2 ^ 192 + (lowHalf x s 4 + highHalf x s 3) * 2 ^ 256
      + highHalf x s 4 * 2 ^ 320 = x.toNat * s.toNat := by
  simp only [toNat_mul_eq_limb_products, ← lowHalf_add_highHalf]
  ring

/-- The second chain drops the carry of its last sum and the high half of the last product, and loses nothing else. -/
theorem mulChainLate_eq (x : U320) (s : Limb) : mulChainLate x s = muls320 x s := by
  have hlow : stepTotal (BitVec.ofNat 64 (lowHalf x s 0), 0) = lowHalf x s 0 := by
    rw [stepTotal, BitVec.toNat_ofNat, lowHalf, Nat.mod_mod, Nat.zero_mul, Nat.add_zero]
  have hchain := fromLimbs_add_dropped_carry hlow (stepTotal_lateStep (lowHalf x s 1) (highHalf x s 0) 0)
    (stepTotal_lateStep (lowHalf x s 2) (highHalf x s 1) _) (stepTotal_lateStep (lowHalf x s 3) (highHalf x s 2) _)
    (stepTotal_lateStep (lowHalf x s 4) (highHalf x s 3) _)
  have htotal := congrArg (· + highHalf x s 4 * 2 ^ 320) hchain
  rw [sum_halves_eq_toNat_mul, Nat.add_assoc, ← Nat.add_mul] at htotal
  exact (eq_ofNat_and_eq_div htotal).1

/-- Settles O19: in either chain the carries cancel and the result with what is dropped is the exact product. -/
theorem bothCarryChainsMultiply : Obligations.BothCarryChainsMultiply := by
  intro x s
  obtain ⟨hresult, hcarry⟩ := mulChain_eq x s
  exact ⟨hresult, hcarry, mulChain_carries_lt x s, mulChainLate_eq x s⟩

/-! ### The commands (R92, R96) -/

theorem decode_add_word (rd ra rb : Reg) (x : Limb) :
    decode (BitVec.ofNat 32 (0x10000000 + rd.val * 2 ^ 22 + ra.val * 2 ^ 20 + rb.val * 2 ^ 18)) x
      = .legal (.add rd ra rb) := by
  have hword : (encode (.add rd ra rb)).cmd =
      BitVec.ofNat 32 (0x10000000 + rd.val * 2 ^ 22 + ra.val * 2 ^ 20 + rb.val * 2 ^ 18) := by
    simp [encode, assembleWord]
  rw [← hword]
  exact decode_encode_cmd nofun

theorem decode_muls_word (rd ra : Reg) (x : Limb) :
    decode (BitVec.ofNat 32 (0x11000000 + rd.val * 2 ^ 22 + ra.val * 2 ^ 20)) x = .legal (.muls rd ra x) := by
  have hword : (encode (.muls rd ra x)).cmd = BitVec.ofNat 32 (0x11000000 + rd.val * 2 ^ 22 + ra.val * 2 ^ 20) := by
    simp [encode, assembleWord]
  rw [← hword]
  exact decode_encode_cmd fun _ => rfl

theorem exec_add (rd ra rb : Reg) (s : State) :
    exec (.add rd ra rb) s =
      .next ((s.writeReg rd (add320 (s.readReg .a ra) (s.readReg .b rb))).respond .ok 0) := rfl

theorem exec_muls (rd ra : Reg) (x : Limb) (s : State) :
    exec (.muls rd ra x) s = .next ((s.writeReg rd (muls320 (s.readReg .a ra) x)).respond .ok 0) := rfl

/-- A command that writes a value register and answers OK: the value, the frame and the response. -/
theorem State.writeReg_respond_ok_spec {s t : State} {rd : Reg} {v : U320} (h : t = (s.writeReg rd v).respond .ok 0) :
    t.Holds rd v ∧ SameOtherRegs rd s t ∧ SameBytes s t ∧ t.len = s.len ∧ NoRequest s t ∧ Reported s t .ok 0 := by
  subst h
  exact ⟨s.writeReg_holds rd v, s.writeReg_sameOtherRegs rd v, fun _ => rfl, rfl, rfl, rfl, rfl, rfl⟩

/-- Settles O17: the sum is formed from the state before the write, whichever of the registers are equal. -/
theorem addWritesTheWrappedSum : Obligations.AddWritesTheWrappedSum := fun rd ra rb =>
  ⟨decode_add_word rd ra rb, fun s => ⟨_, exec_add rd ra rb s, State.writeReg_respond_ok_spec rfl⟩⟩

/-- Settles O21: the product is formed from the state before the write, whether the registers are equal or not. -/
theorem mulsWritesTheWrappedProduct : Obligations.MulsWritesTheWrappedProduct := fun rd ra x =>
  ⟨decode_muls_word rd ra x, fun s => ⟨_, exec_muls rd ra x s, State.writeReg_respond_ok_spec rfl⟩⟩

end Sys2Proof.Machine
end

section
/-! PROOFS. The serializer (42_serializer.md R110, R112): the bytes of a value as slices and as base-256 digits, serialization
as a bijection, and what `TOBYTES` leaves. -/

namespace Sys2Proof.Machine

set_option exponentiation.threshold 512

/-! ### A byte is a slice of the value and of its limb -/

theorem serialByte_toNat (v : U320) (j : Nat) : (serialByte v j).toNat = v.toNat / 2 ^ (8 * (39 - j)) % 2 ^ 8 :=
  BitVec.toNat_ofNat _ _

theorem tobytes40_getElem (v : U320) {j : Nat} (h : j < 40) : (tobytes40 v)[j] = serialByte v j := by
  simp [tobytes40]

theorem tobytes40_toList (v : U320) : (tobytes40 v).toList = (List.range 40).map (serialByte v) := rfl

/-- A slice inside a limb is the slice of the value that lies that far above the foot of the limb. -/
theorem slice_of_limb (v : U320) (i : LimbIndex) {lo width : Nat} (h : lo + width ≤ 64) :
    (limb v i).toNat / 2 ^ lo % 2 ^ width = v.toNat / 2 ^ (64 * i.val + lo) % 2 ^ width := by
  have hsplit : 2 ^ 64 = 2 ^ lo * 2 ^ (64 - lo) := by rw [← Nat.pow_add]; congr 1; omega
  have hdvd : 2 ^ width ∣ 2 ^ (64 - lo) := Nat.pow_dvd_pow 2 (by omega)
  rw [limb_toNat, hsplit, Nat.mod_mul_right_div_self, Nat.mod_mod_of_dvd _ hdvd, Nat.div_div_eq_div_mul, ← Nat.pow_add]

/-- Limb `4 - j / 8` starts at bit `64 * (4 - j / 8)`, and byte `j` lies `56 - 8 * (j % 8)` bits above that. -/
theorem serialByte_toNat_of_limb (v : U320) {j : Nat} (hj : j < 40) {i : LimbIndex} (hi : i.val = 4 - j / 8) :
    (serialByte v j).toNat = (limb v i).toNat / 2 ^ (56 - 8 * (j % 8)) % 2 ^ 8 := by
  have hbit : 64 * i.val + (56 - 8 * (j % 8)) = 8 * (39 - j) := by omega
  rw [serialByte_toNat, slice_of_limb v i (by omega), hbit]

/-! ### Bytes read in base 256 -/

/-- The number the bytes `b` spell in base 256 behind the number `n`, most significant byte first. -/
def base256From (n : Nat) (b : List Byte) : Nat := b.foldl (fun n b => n * 256 + b.toNat) n

@[simp] theorem base256From_nil (n : Nat) : base256From n [] = n := rfl

@[simp] theorem base256From_cons (n : Nat) (c : Byte) (b : List Byte) :
    base256From n (c :: b) = base256From (n * 256 + c.toNat) b := rfl

@[simp] theorem base256From_concat (n : Nat) (b : List Byte) (c : Byte) :
    base256From n (b ++ [c]) = base256From n b * 256 + c.toNat := by
  simp [base256From]

theorem base256From_lt (n : Nat) (b : List Byte) : base256From n b < (n + 1) * 256 ^ b.length := by
  induction b generalizing n with
  | nil => simp
  | cons c b ih =>
    have hc := c.isLt
    calc base256From n (c :: b) < (n * 256 + c.toNat + 1) * 256 ^ b.length := ih _
      _ ≤ ((n + 1) * 256) * 256 ^ b.length := Nat.mul_le_mul_right _ (by omega)
      _ = (n + 1) * 256 ^ (c :: b).length := by rw [List.length_cons]; ring

/-- As many bytes spell one number in one way only. -/
theorem base256From_injective {n n' : Nat} {b b' : List Byte} (hlen : b.length = b'.length)
    (h : base256From n b = base256From n' b') : n = n' ∧ b = b' := by
  induction b generalizing n n' b' with
  | nil =>
    obtain rfl := List.eq_nil_of_length_eq_zero hlen.symm
    exact ⟨h, rfl⟩
  | cons c b ih =>
    obtain _ | ⟨c', b'⟩ := b'
    · cases hlen
    rw [base256From_cons, base256From_cons] at h
    obtain ⟨hn, rfl⟩ := ih (Nat.succ.inj hlen) h
    have hc := c.isLt
    have hc' := c'.isLt
    obtain rfl : c = c' := BitVec.eq_of_toNat_eq (by omega)
    exact ⟨by omega, rfl⟩

/-- The last base-256 digit of a remainder, and the digits before it. -/
theorem mod_pow_succ_eq (w n : Nat) : w % 256 ^ (n + 1) = w / 256 % 256 ^ n * 256 + w % 256 := by
  rw [Nat.pow_succ', Nat.mod_mul]
  ring

/-- The `n` bytes from byte `m` on spell the slice of the value that ends at the foot of the last of them. -/
theorem base256From_serialBytes (v : U320) {m n : Nat} (h : m + n ≤ 40) :
    base256From 0 ((List.range' m n).map (serialByte v)) = v.toNat / 2 ^ (8 * (40 - (m + n))) % 256 ^ n := by
  induction n with
  | zero => simp [Nat.mod_one]
  | succ n ih =>
    have hshift : 2 ^ (8 * (40 - (m + n))) = 2 ^ (8 * (39 - (m + n))) * 256 := by
      rw [show 8 * (40 - (m + n)) = 8 * (39 - (m + n)) + 8 by omega, Nat.pow_add]
    have hfoot : 40 - (m + (n + 1)) = 39 - (m + n) := by omega
    rw [List.range'_1_concat, List.map_append, List.map_singleton, base256From_concat, ih (by omega), serialByte_toNat,
      hshift, hfoot, ← Nat.div_div_eq_div_mul, mod_pow_succ_eq, show 2 ^ 8 = 256 from rfl]

theorem base256From_tobytes40 (v : U320) : base256From 0 (tobytes40 v).toList = v.toNat := by
  rw [tobytes40_toList, List.range_eq_range', base256From_serialBytes v (by omega), Nat.zero_add, Nat.sub_self,
    Nat.mul_zero, Nat.pow_zero, Nat.div_one]
  exact Nat.mod_eq_of_lt v.isLt

/-! ### Serialization is a bijection -/

theorem tobytes40_injective : Function.Injective tobytes40 := by
  intro v v' h
  apply BitVec.eq_of_toNat_eq
  rw [← base256From_tobytes40 v, h, base256From_tobytes40]

/-- Forty bytes are the serialization of the number they spell. -/
theorem tobytes40_base256From (b : Vector Byte 40) : tobytes40 (BitVec.ofNat 320 (base256From 0 b.toList)) = b := by
  have hlt : base256From 0 b.toList < 2 ^ 320 := by simpa using base256From_lt 0 b.toList
  have hspell := base256From_tobytes40 (BitVec.ofNat 320 (base256From 0 b.toList))
  rw [BitVec.toNat_ofNat, Nat.mod_eq_of_lt hlt] at hspell
  obtain ⟨-, hbytes⟩ := base256From_injective (by simp only [Vector.length_toList]) hspell
  exact Vector.toList_inj.mp hbytes

/-- Settles O22: a byte is a slice inside one limb, and the bytes are the forty base-256 digits of the value. -/
theorem serializationIsBigEndian : Obligations.SerializationIsBigEndian := by
  refine ⟨fun v j hj => ?_, base256From_tobytes40, tobytes40_injective, fun b => ⟨_, tobytes40_base256From b⟩⟩
  rw [tobytes40_getElem v hj]
  exact ⟨serialByte_toNat v j, fun i hi => serialByte_toNat_of_limb v hj hi⟩

/-! ### The command (R112) -/

theorem decode_tobytes_word (ra : Reg) (x : Limb) :
    decode (BitVec.ofNat 32 (0x20000000 + ra.val * 2 ^ 20)) x = .legal (.tobytes ra) := by
  have hword : (encode (.tobytes ra)).cmd = BitVec.ofNat 32 (0x20000000 + ra.val * 2 ^ 20) := by
    simp [encode, assembleWord]
  rw [← hword]
  exact decode_encode_cmd nofun

/-- Settles O23: forty bytes at address 0 lie inside the buffer, so the store writes all of them and no other byte. -/
theorem tobytesStoresTheSerialization : Obligations.TobytesStoresTheSerialization := by
  refine fun ra => ⟨decode_tobytes_word ra, fun s => ⟨_, exec_tobytes ra s, ?_⟩⟩
  generalize tobytes40 (s.readReg .a ra) = b
  have hend : 0 + b.toList.length = 40 := by simp
  have hfits : 0 + b.toList.length ≤ 64 := by omega
  have houtside := s.memWrite_sameBytesOutside hfits
  rw [hend] at houtside
  exact ⟨s.memWrite_holdsBytes hfits, houtside, rfl, rfl, rfl, rfl, rfl, rfl⟩

end Sys2Proof.Machine
end

section
/-! PROOFS. The Base58 codec (43_base58.md R120 to R130): the alphabet, the number a list of digits spells, the encoder as
the digits of its value, the decoder as the value of its digits, the division datapath, and what `ENCODE` and `DECODE`
leave. -/

namespace Sys2Proof.Machine

set_option exponentiation.threshold 512

/-! ### The alphabet (R120, R121) -/

theorem alphabet_nodup : alphabet.Nodup := by decide

theorem alphabet_length : alphabet.length = 58 := rfl

/-- In a list without repetitions the position counted from `k` is the only one at which the byte stands. -/
theorem positionFrom_eq_some_iff {c : Byte} {l : List Byte} (hl : l.Nodup) {k d : Nat} :
    positionFrom c l k = some d ↔ ∃ i, d = k + i ∧ l[i]? = some c := by
  induction l generalizing k with
  | nil => simp [positionFrom]
  | cons b rest ih =>
    obtain ⟨hb, hrest⟩ := List.nodup_cons.mp hl
    by_cases hc : c = b
    · subst hc
      constructor
      · intro h
        exact ⟨0, by simpa [positionFrom, eq_comm] using h, rfl⟩
      · rintro ⟨_ | i, rfl, hi⟩
        · simp [positionFrom]
        · exact absurd (List.mem_of_getElem? (i := i) hi) hb
    · rw [positionFrom, if_neg hc, ih hrest]
      constructor
      · rintro ⟨i, rfl, hi⟩
        exact ⟨i + 1, by omega, hi⟩
      · rintro ⟨_ | i, rfl, hi⟩
        · exact absurd (Option.some.inj hi).symm hc
        · exact ⟨i, by omega, hi⟩

/-- Settles O26: no byte stands twice in the alphabet, so the first position is the only one. -/
theorem aDigitIsAPositionInTheAlphabet : Obligations.ADigitIsAPositionInTheAlphabet := by
  intro c d
  rw [b58index, positionFrom_eq_some_iff alphabet_nodup]
  constructor
  · rintro ⟨i, rfl, hi⟩
    obtain ⟨hlt, -⟩ := List.getElem?_eq_some_iff.mp hi
    rw [Nat.zero_add]
    exact ⟨hlt, hi⟩
  · rintro ⟨-, hd⟩
    exact ⟨d, (Nat.zero_add d).symm, hd⟩

theorem b58index_eq_some_iff {c : Byte} {d : Nat} : b58index c = some d ↔ d < 58 ∧ alphabetByte d = c := by
  rw [aDigitIsAPositionInTheAlphabet, and_congr_right_iff]
  intro hd
  rw [alphabetByte, List.getD_eq_getElem?_getD, List.getElem?_eq_getElem (by rwa [alphabet_length]), Option.some.injEq,
    Option.getD_some]

theorem b58index_alphabetByte {d : Nat} (h : d < 58) : b58index (alphabetByte d) = some d :=
  b58index_eq_some_iff.mpr ⟨h, rfl⟩

/-! ### Digits, most significant first -/

/-- Every member is a Base58 digit. -/
abbrev AreDigits (ds : List Nat) : Prop := ∀ d ∈ ds, d < 58

theorem digitsOf_cons_eq_some_iff {c : Byte} {b : List Byte} {ds : List Nat} :
    digitsOf (c :: b) = some ds ↔ ∃ d ds', b58index c = some d ∧ digitsOf b = some ds' ∧ ds = d :: ds' := by
  cases hc : b58index c <;> cases hb : digitsOf b <;> simp [digitsOf, hc, hb, eq_comm]

theorem digitsOf_eq_some_iff {b : List Byte} {ds : List Nat} :
    digitsOf b = some ds ↔ AreDigits ds ∧ b = ds.map alphabetByte := by
  induction b generalizing ds with
  | nil => cases ds <;> simp [digitsOf, AreDigits]
  | cons c b ih =>
    simp only [digitsOf_cons_eq_some_iff, b58index_eq_some_iff, ih]
    constructor
    · rintro ⟨d, ds', ⟨hd, rfl⟩, ⟨hds, rfl⟩, rfl⟩
      exact ⟨List.forall_mem_cons.mpr ⟨hd, hds⟩, rfl⟩
    · rintro ⟨hds, hb⟩
      obtain ⟨d, ds', rfl, rfl, rfl⟩ := List.map_eq_cons_iff.mp hb.symm
      obtain ⟨hd, hds'⟩ := List.forall_mem_cons.mp hds
      exact ⟨d, ds', ⟨hd, rfl⟩, ⟨hds', rfl⟩, rfl⟩

/-- The number digits spell, in the library's terms: those digits least significant first. -/
theorem numberOf_eq_ofDigits (ds : List Nat) : numberOf ds = Nat.ofDigits 58 ds.reverse := by
  rw [numberOf, Nat.ofDigits_eq_foldr, List.foldr_reverse]
  congr 1
  funext n d
  rw [Nat.cast_id, Nat.add_comm, Nat.mul_comm]

theorem numberOf_lt {ds : List Nat} (h : AreDigits ds) : numberOf ds < 58 ^ ds.length := by
  rw [numberOf_eq_ofDigits, ← List.length_reverse]
  exact Nat.ofDigits_lt_base_pow_length (by decide) (by simpa using h)

/-- As many digits spell one number in one way only. -/
theorem numberOf_injective {ds ds' : List Nat} (h : AreDigits ds) (h' : AreDigits ds') (hlen : ds.length = ds'.length)
    (hnum : numberOf ds = numberOf ds') : ds = ds' := by
  rw [numberOf_eq_ofDigits, numberOf_eq_ofDigits] at hnum
  exact List.reverse_injective <|
    Nat.ofDigits_inj_of_len_eq (by decide) (by simpa using hlen) (by simpa using h) (by simpa using h') hnum

theorem numberOf_replicate_zero_append (k : Nat) (ds : List Nat) :
    numberOf (List.replicate k 0 ++ ds) = numberOf ds := by
  simp [numberOf_eq_ofDigits]

/-- The Base58 digits of a number, most significant first, without leading zeros. -/
def b58Digits (n : Nat) : List Nat := (Nat.digits 58 n).reverse

theorem b58Digits_zero : b58Digits 0 = [] := by simp [b58Digits]

theorem b58Digits_of_ne_zero {n : Nat} (h : n ≠ 0) : b58Digits n = b58Digits (n / 58) ++ [n % 58] := by
  rw [b58Digits, b58Digits, Nat.digits_of_two_le_of_pos (by decide) (Nat.pos_of_ne_zero h), List.reverse_cons]

theorem areDigits_b58Digits (n : Nat) : AreDigits (b58Digits n) := fun _ hd =>
  Nat.digits_lt_base (by decide) (List.mem_reverse.mp hd)

theorem numberOf_b58Digits (n : Nat) : numberOf (b58Digits n) = n := by
  rw [numberOf_eq_ofDigits, b58Digits, List.reverse_reverse, Nat.ofDigits_digits]

theorem b58Digits_length_le_iff (n k : Nat) : (b58Digits n).length ≤ k ↔ n < 58 ^ k := by
  rw [b58Digits, List.length_reverse, Nat.digits_length_le_iff (by decide)]

theorem b58Digits_head?_ne_zero (n : Nat) : (b58Digits n).head? ≠ some 0 := by
  rw [b58Digits, List.head?_reverse]
  intro h
  have hn : n ≠ 0 := by
    rintro rfl
    simp at h
  rw [List.getLast?_eq_some_getLast (Nat.digits_ne_nil_iff_ne_zero.mpr hn), Option.some.injEq] at h
  exact Nat.getLast_digit_ne_zero 58 hn h

/-! ### The encoder (R123, R125) -/

theorem encodeLoop_eq {fuel v : Nat} (h : v < 58 ^ fuel) (out : List Byte) :
    encodeLoop fuel v out = (b58Digits v).map alphabetByte ++ out := by
  induction fuel generalizing v out with
  | zero =>
    obtain rfl : v = 0 := by simpa using h
    rw [encodeLoop, b58Digits_zero, List.map_nil, List.nil_append]
  | succ fuel ih =>
    rw [encodeLoop]
    split
    · next hv => rw [hv, b58Digits_zero, List.map_nil, List.nil_append]
    · next hv =>
      have hdiv : v / 58 < 58 ^ fuel := Nat.div_lt_of_lt_mul (by rwa [← Nat.pow_succ'])
      rw [Config.radix, ih hdiv, b58Digits_of_ne_zero hv, List.map_append, List.append_assoc]
      rfl

/-- 55 digits are enough for every value, so the loop never runs out of fuel. -/
theorem b58enc_eq (v : U320) : b58enc v = (b58Digits v.toNat).map alphabetByte := by
  have hlt : v.toNat < 58 ^ 55 := v.isLt.trans_le (by norm_num)
  rw [b58enc, Config.maxDigits, encodeLoop_eq hlt, List.append_nil]

theorem b58enc_length_le_iff (v : U320) (n : Nat) : (b58enc v).length ≤ n ↔ v.toNat < 58 ^ n := by
  rw [b58enc_eq, List.length_map, b58Digits_length_le_iff]

theorem b58enc_eq_nil_iff (v : U320) : b58enc v = [] ↔ v = 0 := by
  rw [← List.length_eq_zero_iff, ← Nat.le_zero, b58enc_length_le_iff, pow_zero, Nat.lt_one_iff, ← BitVec.toNat_inj]
  rfl

/-- Settles O27: the digits of the encoder are the base-58 digits of the value. -/
theorem theEncoderSpellsTheValue : Obligations.TheEncoderSpellsTheValue := fun v =>
  ⟨b58Digits v.toNat, b58enc_eq v, areDigits_b58Digits _, numberOf_b58Digits _, b58Digits_head?_ne_zero _,
    b58enc_eq_nil_iff v, fun n => (b58enc_length_le_iff v n).symm⟩

/-- A length is exactly `n + 1` between two neighbouring powers of 58. -/
theorem b58enc_length_eq_succ_iff (v : U320) (n : Nat) :
    (b58enc v).length = n + 1 ↔ 58 ^ n ≤ v.toNat ∧ v.toNat < 58 ^ (n + 1) := by
  rw [← Nat.not_lt, ← b58enc_length_le_iff, ← b58enc_length_le_iff]
  omega

/-- Settles O28: the length is read off the powers of 58 around the value. -/
theorem theLengthOfTheEncodersOutput : Obligations.TheLengthOfTheEncodersOutput := by
  refine ⟨rfl, fun v hlo hhi => ?_, ?_, by norm_num, by norm_num, by norm_num, by norm_num, by norm_num, by norm_num,
    fun v => ⟨b58enc_length_le v, ?_⟩, fun v => (b58enc_length_le_iff v 52).mpr⟩
  · exact (b58enc_length_eq_succ_iff v 0).mpr ⟨hlo, by omega⟩
  · exact (b58enc_length_eq_succ_iff 58 1).mpr (by decide)
  · have hlt : v.toNat < 58 ^ 55 := (b58enc_length_le_iff v 55).mp (b58enc_length_le v)
    exact (b58enc_length_eq_succ_iff v 54).trans (and_iff_left hlt)

/-! ### The division datapath (R124) -/

/-- One step divides the remainder so far with the next limb behind it; its quotient fits a limb. -/
theorem divStep_spec (l : Limb) {rem : Nat} (h : rem < 58) :
    58 * (divStep l rem).1.toNat + (divStep l rem).2 = rem * 2 ^ 64 + l.toNat ∧ (divStep l rem).2 < 58 := by
  rw [divStep, BitVec.toNat_ofNat]
  omega

theorem divChain_spec (v : U320) :
    58 * (divChain v).1.toNat + (divChain v).2 = v.toNat ∧ (divChain v).2 < 58 := by
  rw [divChain, fromLimbs_toNat, toNat_eq_limb_sum v]
  obtain ⟨h4, hr4⟩ := divStep_spec (limb v 4) (rem := 0) (by decide)
  obtain ⟨h3, hr3⟩ := divStep_spec (limb v 3) hr4
  obtain ⟨h2, hr2⟩ := divStep_spec (limb v 2) hr3
  obtain ⟨h1, hr1⟩ := divStep_spec (limb v 1) hr2
  obtain ⟨h0, hr0⟩ := divStep_spec (limb v 0) hr1
  exact ⟨by omega, hr0⟩

/-- Settles O29: each remainder is below 58, so the step quotients are the limbs of the quotient. -/
theorem theDivisionDatapathDivides : Obligations.TheDivisionDatapathDivides := by
  intro v
  obtain ⟨hsum, hlt⟩ := divChain_spec v
  omega

/-! ### The decoder (R127, R130) -/

/-- One step of the loop, on whole numbers: the wrap of each operation is the wrap of the result. -/
theorem decodeStep_ofNat (n d : Nat) :
    add320 (muls320 (BitVec.ofNat 320 n) (BitVec.ofNat 64 Config.radix)) (zextDigit d) = BitVec.ofNat 320 (n * 58 + d) := by
  apply BitVec.eq_of_toNat_eq
  rw [add320_toNat, muls320_toNat, zextDigit, Config.radix]
  simp only [BitVec.toNat_ofNat]
  omega

theorem decodeLoop_of_digitsOf {b : List Byte} {ds : List Nat} (h : digitsOf b = some ds) (n : Nat) :
    decodeLoop b (BitVec.ofNat 320 n) = .ok (BitVec.ofNat 320 (ds.foldl (fun n d => n * 58 + d) n)) := by
  induction b generalizing ds n with
  | nil =>
    cases h
    rfl
  | cons c b ih =>
    obtain ⟨d, ds', hc, hb, rfl⟩ := digitsOf_cons_eq_some_iff.mp h
    simp only [decodeLoop, hc]
    rw [decodeStep_ofNat, ih hb, List.foldl_cons]

theorem exists_digitsOf_of_decodeLoop_ok {b : List Byte} {acc v : U320} (h : decodeLoop b acc = .ok v) :
    ∃ ds, digitsOf b = some ds := by
  induction b generalizing acc with
  | nil => exact ⟨[], rfl⟩
  | cons c b ih =>
    cases hc : b58index c with
    | none => simp [decodeLoop, hc] at h
    | some d =>
      simp only [decodeLoop, hc] at h
      obtain ⟨ds, hds⟩ := ih h
      exact ⟨d :: ds, digitsOf_cons_eq_some_iff.mpr ⟨d, ds, hc, hds, rfl⟩⟩

/-- The loop stops at the leftmost byte that is no digit. -/
theorem decodeLoop_of_bad_byte {b : List Byte} {i : Nat} (hi : i < b.length)
    (hbefore : ∀ (j : Nat) (hj : j < i), b58index b[j] ≠ none) (hbad : b58index b[i] = none) (acc : U320) :
    decodeLoop b acc = .invalidCharacter b[i] := by
  induction b generalizing i acc with
  | nil => cases hi
  | cons c b ih =>
    cases i with
    | zero =>
      rw [List.getElem_cons_zero] at hbad
      simp [decodeLoop, hbad]
    | succ i =>
      obtain ⟨d, hd⟩ := Option.ne_none_iff_exists'.mp (hbefore 0 (Nat.zero_lt_succ i))
      rw [List.getElem_cons_zero] at hd
      simp only [decodeLoop, hd]
      exact ih (Nat.lt_of_succ_lt_succ hi) (fun j hj => hbefore (j + 1) (Nat.succ_lt_succ hj)) hbad _

theorem b58dec_of_length_eq {b : List Byte} (h : b.length = 52) : b58dec b = decodeLoop b 0 := if_neg (not_not.mpr h)

/-- Settles O31: the loop gives the number modulo `2^320`, and 52 digits spell a number below `58^52`. -/
theorem theDecoderGivesThePositionalValue : Obligations.TheDecoderGivesThePositionalValue := by
  intro b ds hlen hds
  obtain ⟨hdigits, rfl⟩ := digitsOf_eq_some_iff.mp hds
  rw [List.length_map] at hlen
  have hlt : numberOf ds < 58 ^ 52 := hlen ▸ numberOf_lt hdigits
  refine ⟨BitVec.ofNat 320 (numberOf ds), ?_, ?_, hlt⟩
  · rw [b58dec_of_length_eq (by rwa [List.length_map])]
    exact decodeLoop_of_digitsOf hds 0
  · rw [BitVec.toNat_ofNat, Nat.mod_eq_of_lt (hlt.trans (by norm_num))]

/-- The decoder accepts exactly the spellings in 52 digits, and gives the number they spell. -/
theorem b58dec_eq_ok_iff {b : List Byte} {v : U320} :
    b58dec b = .ok v ↔ ∃ ds, AreDigits ds ∧ ds.length = 52 ∧ b = ds.map alphabetByte ∧ numberOf ds = v.toNat := by
  constructor
  · intro h
    by_cases hlen : b.length = 52
    · obtain ⟨ds, hds⟩ := exists_digitsOf_of_decodeLoop_ok ((b58dec_of_length_eq hlen).symm.trans h)
      obtain ⟨u, hu, hnum, -⟩ := theDecoderGivesThePositionalValue b ds hlen hds
      obtain rfl : u = v := DecodeResult.ok.inj (hu.symm.trans h)
      obtain ⟨hdigits, rfl⟩ := digitsOf_eq_some_iff.mp hds
      exact ⟨ds, hdigits, by rwa [List.length_map] at hlen, rfl, hnum.symm⟩
    · rw [b58dec_of_length_ne hlen] at h
      cases h
  · rintro ⟨ds, hdigits, hlen, rfl, hnum⟩
    obtain ⟨u, hu, hval, -⟩ := theDecoderGivesThePositionalValue (ds.map alphabetByte) ds (by rwa [List.length_map])
      (digitsOf_eq_some_iff.mpr ⟨hdigits, rfl⟩)
    rw [hu, BitVec.eq_of_toNat_eq (hval.trans hnum)]

/-- Settles O32: 52 digits spell a number in one way only. -/
theorem theDecoderIsInjective : Obligations.TheDecoderIsInjective := by
  intro b b' v h h'
  obtain ⟨ds, hdigits, hlen, rfl, hnum⟩ := b58dec_eq_ok_iff.mp h
  obtain ⟨ds', hdigits', hlen', rfl, hnum'⟩ := b58dec_eq_ok_iff.mp h'
  rw [numberOf_injective hdigits hdigits' (hlen.trans hlen'.symm) (hnum.trans hnum'.symm)]

/-! ### The round trips (R129) -/

/-- The padding character is the digit 0. -/
theorem pad52_map_alphabetByte (ds : List Nat) :
    pad52 (ds.map alphabetByte) = (List.replicate (52 - ds.length) 0 ++ ds).map alphabetByte := by
  rw [pad52, List.length_map, List.map_append, List.map_replicate]
  rfl

theorem dropOnes_pad52 (b : List Byte) : dropOnes (pad52 b) = dropOnes b :=
  List.dropWhile_append_of_pos fun _ hc => beq_iff_eq.mpr (List.eq_of_mem_replicate hc)

/-- The encoder's output has no leading `'1'`, since the value has no leading zero digit. -/
theorem dropOnes_b58enc (v : U320) : dropOnes (b58enc v) = b58enc v := by
  rw [b58enc_eq, dropOnes]
  cases hds : b58Digits v.toNat with
  | nil => rfl
  | cons d ds =>
    have hd : d < 58 := areDigits_b58Digits v.toNat d (by rw [hds]; exact List.mem_cons_self)
    have hne : d ≠ 0 := fun h0 => b58Digits_head?_ne_zero v.toNat (by rw [hds, h0]; rfl)
    have hchar : alphabetByte d ≠ 0x31 := fun h =>
      hne (Option.some.inj ((b58index_alphabetByte hd).symm.trans (congrArg b58index h)))
    rw [List.map_cons, List.dropWhile_cons_of_neg (by simpa using hchar)]

theorem b58dec_pad52_b58enc {v : U320} (h : v.toNat < 58 ^ 52) : b58dec (pad52 (b58enc v)) = .ok v := by
  have hlen : (b58Digits v.toNat).length ≤ 52 := (b58Digits_length_le_iff _ _).mpr h
  rw [b58enc_eq, pad52_map_alphabetByte]
  refine b58dec_eq_ok_iff.mpr ⟨_, ?_, ?_, rfl, ?_⟩
  · intro d hd
    rcases List.mem_append.mp hd with hpad | hdigit
    · rw [List.eq_of_mem_replicate hpad]
      decide
    · exact areDigits_b58Digits _ d hdigit
  · rw [List.length_append, List.length_replicate]
    omega
  · rw [numberOf_replicate_zero_append, numberOf_b58Digits]

/-- A decoded value is below `58^52`, so its padded encoding decodes to it as well, and the decoder is injective. -/
theorem pad52_b58enc_of_b58dec_ok {b : List Byte} {v : U320} (h : b58dec b = .ok v) : pad52 (b58enc v) = b := by
  obtain ⟨ds, hdigits, hlen, -, hnum⟩ := b58dec_eq_ok_iff.mp h
  have hlt : v.toNat < 58 ^ 52 := by
    rw [← hnum, ← hlen]
    exact numberOf_lt hdigits
  exact theDecoderIsInjective _ _ v (b58dec_pad52_b58enc hlt) h

/-- Settles O34: padding adds zero digits, which change no value, and the length tells the values the decoder reaches. -/
theorem encodeAndDecodeRoundTrip : Obligations.EncodeAndDecodeRoundTrip := by
  refine ⟨fun b v h => ?_, fun v => b58dec_pad52_b58enc, fun v h => ?_⟩
  · have hpad := pad52_b58enc_of_b58dec_ok h
    refine ⟨?_, hpad⟩
    rw [← hpad, dropOnes_pad52, dropOnes_b58enc]
  · have hlong : ¬ (b58enc v).length ≤ 52 := by
      rw [b58enc_length_le_iff]
      omega
    exact ⟨by omega, b58enc_length_le v, b58dec_of_length_ne (by omega)⟩

/-! ### The commands (R126, R128) -/

theorem decode_encode_word (ra : Reg) (x : Limb) :
    decode (BitVec.ofNat 32 (0x31000000 + ra.val * 2 ^ 20)) x = .legal (.encode ra) := by
  have hword : (encode (.encode ra)).cmd = BitVec.ofNat 32 (0x31000000 + ra.val * 2 ^ 20) := by
    simp [encode, assembleWord]
  rw [← hword]
  exact decode_encode_cmd nofun

theorem decode_decode_word (rd : Reg) (x : Limb) :
    decode (BitVec.ofNat 32 (0x30000000 + rd.val * 2 ^ 22)) x = .legal (.decode rd) := by
  have hword : (encode (.decode rd)).cmd = BitVec.ofNat 32 (0x30000000 + rd.val * 2 ^ 22) := by
    simp [encode, assembleWord]
  rw [← hword]
  exact decode_encode_cmd nofun

/-- A string stored at address 0 with its length in `LEN`: the bytes, the length, the frame and the response. -/
theorem State.storeString_spec {s t : State} {b : List Byte} (hb : b.length ≤ 64)
    (h : t = ((s.memWrite 0 b).setLen (BitVec.ofNat 7 b.length)).respond .ok (BitVec.ofNat 64 b.length)) :
    t.HoldsBytes 0 b ∧ SameBytesOutside 0 b.length s t ∧ t.len.toNat = b.length ∧ t.w = s.w ∧ NoRequest s t ∧
      Reported s t .ok (BitVec.ofNat 64 b.length) := by
  subst h
  have hfits : 0 + b.length ≤ 64 := by omega
  have houtside := s.memWrite_sameBytesOutside hfits
  rw [Nat.zero_add] at houtside
  refine ⟨s.memWrite_holdsBytes hfits, houtside, ?_, rfl, rfl, rfl, rfl, rfl⟩
  rw [State.respond_len, State.setLen_len, BitVec.toNat_ofNat]
  omega

/-- Settles O30: at most 55 bytes at address 0 lie inside the buffer, and their number fits `LEN`. -/
theorem encodeWritesTheString : Obligations.EncodeWritesTheString := by
  refine fun ra => ⟨decode_encode_word ra, fun s => ⟨_, _, exec_encode ra s, rfl, b58enc_length_le _, ?_⟩⟩
  exact State.storeString_spec ((b58enc_length_le _).trans (by decide)) rfl

/-- `DECODE` in one equation, by the result of the decoder. -/
theorem exec_decode {rd : Reg} {s : State} {r : DecodeResult} (h : b58dec (s.memRead 0 s.len.toNat) = r) :
    exec (.decode rd) s = .next ((decodeEffect rd r).apply s) := by
  rw [exec_eq_answer, effect, h, answer]

theorem State.memRead_getElem (s : State) (n : Nat) {i : Nat} (h : i < (s.memRead 0 n).length) :
    (s.memRead 0 n)[i] = s.readByte i := by
  simp [State.memRead]

theorem digitsOf_memRead {s : State} {ds : List Nat} (h : ∀ i < ds.length, b58index (s.readByte i) = ds[i]?) :
    digitsOf (s.memRead 0 ds.length) = some ds := by
  have hdigit (i : Nat) (hi : i < ds.length) : ds[i] < 58 ∧ alphabetByte ds[i] = s.readByte i :=
    b58index_eq_some_iff.mp ((h i hi).trans (List.getElem?_eq_getElem hi))
  refine digitsOf_eq_some_iff.mpr ⟨List.forall_mem_iff_getElem.mpr fun i hi => (hdigit i hi).1,
    List.ext_getElem ?_ fun i _ hi => ?_⟩
  · rw [State.memRead_length, List.length_map]
  · rw [State.memRead_getElem, List.getElem_map]
    exact (hdigit i (by rwa [List.length_map] at hi)).2.symm

/-- With 52 alphabet bytes in `BUF` the decoder gives the number they spell. -/
theorem b58dec_memRead_of_digits {s : State} {ds : List Nat} (hlen : s.len = 52) (hds : ds.length = 52)
    (h : ∀ i < 52, b58index (s.readByte i) = ds[i]?) :
    ∃ v : U320, b58dec (s.memRead 0 s.len.toNat) = .ok v ∧ v.toNat = numberOf ds := by
  rw [← hds] at h
  obtain ⟨v, hv, hnum, -⟩ := theDecoderGivesThePositionalValue _ ds (by rw [State.memRead_length, hds])
    (digitsOf_memRead h)
  rw [hds] at hv
  exact ⟨v, by rwa [hlen], hnum⟩

theorem b58dec_memRead_of_length_ne {s : State} (h : s.len ≠ 52) :
    b58dec (s.memRead 0 s.len.toNat) = .invalidLength := by
  refine b58dec_of_length_ne fun hlen => h (BitVec.eq_of_toNat_eq ?_)
  rwa [State.memRead_length] at hlen

theorem b58dec_memRead_of_bad_byte {s : State} {i : Nat} (hlen : s.len = 52) (hi : i < 52)
    (hbefore : ∀ j < i, b58index (s.readByte j) ≠ none) (hbad : b58index (s.readByte i) = none) :
    b58dec (s.memRead 0 s.len.toNat) = .invalidCharacter (s.readByte i) := by
  have hread : (s.memRead 0 s.len.toNat).length = 52 := by
    rw [State.memRead_length, hlen]
    rfl
  have hi' : i < (s.memRead 0 s.len.toNat).length := by rwa [hread]
  rw [b58dec_of_length_eq hread, ← s.memRead_getElem _ hi']
  exact decodeLoop_of_bad_byte hi' (fun j hj => by rw [State.memRead_getElem]; exact hbefore j hj)
    (by rwa [State.memRead_getElem]) 0

/-- A response alone leaves the core as it was. -/
theorem State.respond_sameCore_reported (s : State) (st : Status) (x : Limb) :
    SameCore s (s.respond st x) ∧ NoRequest s (s.respond st x) ∧ Reported s (s.respond st x) st x :=
  ⟨⟨rfl, fun _ => rfl, rfl⟩, rfl, rfl, rfl, rfl⟩

/-- Settles O33: the decoder's result in each of the three cases, and what `DECODE` does on that result. -/
theorem decodeWritesTheValueOrReportsTheError : Obligations.DecodeWritesTheValueOrReportsTheError := by
  refine fun rd s => ⟨decode_decode_word rd, fun ds hlen hds hdigits => ?_, fun hlen => ?_,
    fun i hlen hi hbefore hbad => ?_⟩
  · obtain ⟨v, hv, hnum⟩ := b58dec_memRead_of_digits hlen hds hdigits
    exact ⟨_, v, exec_decode hv, hnum, State.writeReg_respond_ok_spec rfl⟩
  · exact ⟨_, exec_decode (b58dec_memRead_of_length_ne hlen), s.respond_sameCore_reported _ _⟩
  · exact ⟨_, exec_decode (b58dec_memRead_of_bad_byte hlen hi hbefore hbad), s.respond_sameCore_reported _ _⟩

end Sys2Proof.Machine
end

section
/-! PROOFS. The validator (44_validator.md R140 to R148): the flag test as a slice of the value, the hashed slice and the
checksum as runs of the serialization, the verdict in one line, and what `FCHK` and `VALID` leave. -/

namespace Sys2Proof.Machine

set_option exponentiation.threshold 512

/-! ### The flag test (R140) -/

/-- A mask of `width` ones above `lo` zeros leaves the slice it covers, in its place. -/
theorem and_mask_eq_slice (n lo width : Nat) : n &&& (2 ^ width - 1) * 2 ^ lo = n / 2 ^ lo % 2 ^ width * 2 ^ lo := by
  apply Nat.eq_of_testBit_eq
  intro i
  rw [Nat.testBit_and, Nat.testBit_mul_two_pow, Nat.testBit_mul_two_pow, Nat.testBit_two_pow_sub_one,
    Nat.testBit_mod_two_pow, Nat.testBit_div_two_pow]
  by_cases hi : lo ≤ i
  · rw [Nat.sub_add_cancel hi, Bool.and_comm, Bool.and_assoc]
  · simp [hi]

theorem fastcheck_iff_mask (v : U320) :
    fastcheck v = true ↔ limb v 0 &&& 0x000000FF00000000#64 = 0x0000000100000000#64 :=
  beq_iff_eq

/-- The mask covers bits 39 to 32 of limb 0, which are bits 39 to 32 of the value. -/
theorem fastcheck_iff (v : U320) : fastcheck v = true ↔ v.toNat / 2 ^ 32 % 2 ^ 8 = 1 := by
  have hslice : (limb v 0).toNat / 2 ^ 32 % 2 ^ 8 = v.toNat / 2 ^ 32 % 2 ^ 8 := slice_of_limb v 0 (by decide)
  have hmask : (limb v 0 &&& 0x000000FF00000000#64).toNat = v.toNat / 2 ^ 32 % 2 ^ 8 * 2 ^ 32 := by
    rw [← hslice]
    exact and_mask_eq_slice _ 32 8
  rw [fastcheck_iff_mask, ← BitVec.toNat_inj, hmask]
  change _ = 1 * 2 ^ 32 ↔ _
  exact Nat.mul_left_inj (by decide)

theorem fastcheck_iff_serialByte (v : U320) : fastcheck v = true ↔ serialByte v 35 = 1 := by
  rw [fastcheck_iff, ← BitVec.toNat_inj, serialByte_toNat]
  rfl

/-- Settles O35: the mask, the slice and byte 35 of the serialization are one test, and it reads limb 0 alone. -/
theorem theFastCheckIsTheFlagByte : Obligations.TheFastCheckIsTheFlagByte := by
  refine ⟨fastcheck_iff, fun v => ?_, fastcheck_iff_mask, fun v v' h => ?_⟩
  · rw [tobytes40_getElem v (by decide)]
    exact fastcheck_iff_serialByte v
  · rw [fastcheck, h, fastcheck]

/-! ### The hashed slice and the checksum (R143) -/

theorem slice_tobytes40 (v : U320) (i j : Nat) :
    slice (tobytes40 v).toList i j = (((List.range 40).drop i).take (j - i)).map (serialByte v) := by
  rw [slice, tobytes40_toList, List.map_take, List.map_drop]

theorem payload_eq (v : U320) : payload v = (List.range' 2 34).map (serialByte v) := slice_tobytes40 v 2 36

theorem claimed_eq (v : U320) : claimed v = (List.range' 36 4).map (serialByte v) := slice_tobytes40 v 36 40

/-- Settles O24: the serialized bytes 2 to 35 end at bit 32 of the value, the bytes 36 to 39 at bit 0. -/
theorem theHashedSliceAndTheChecksum : Obligations.TheHashedSliceAndTheChecksum := by
  intro v
  have hpayload := base256From_serialBytes v (m := 2) (n := 34) (by decide)
  have hclaimed := base256From_serialBytes v (m := 36) (n := 4) (by decide)
  rw [← payload_eq] at hpayload
  rw [← claimed_eq] at hclaimed
  refine ⟨?_, hpayload, ?_, ?_⟩
  · rw [payload_eq, List.length_map, List.length_range']
  · rw [claimed_eq, List.length_map, List.length_range']
  · simpa [base256From] using hclaimed

/-! ### The verdict (R144, R147) -/

/-- The four comparisons compare the first four bytes of the digest with the claimed checksum. -/
theorem checksumMatches_iff (d : Vector Byte 32) (v : U320) :
    checksumMatches d (tobytes40 v) = true ↔ d.toList.take 4 = claimed v := by
  have htake : d.toList.take 4 = [d[0], d[1], d[2], d[3]] := by
    apply List.ext_getElem
    · simp
    · intro i _ hi
      match i, hi with
      | 0, _ | 1, _ | 2, _ | 3, _ => simp
  have hclaimed : claimed v = [serialByte v 36, serialByte v 37, serialByte v 38, serialByte v 39] := claimed_eq v
  rw [htake, hclaimed]
  simp [checksumMatches, tobytes40_getElem, and_assoc]

theorem isvalid_iff (v : U320) :
    isvalid v = true ↔
      fastcheck v = true ∧ (Config.sha256 (Config.sha256 (payload v)).toList).toList.take 4 = claimed v := by
  rw [← checksumMatches_iff, isvalid]
  cases fastcheck v <;> simp

/-- Settles O37: both stages are their one-line forms. -/
theorem validityIsTheFlagAndTheChecksum : Obligations.ValidityIsTheFlagAndTheChecksum := fun v => by
  rw [isvalid_iff, fastcheck_iff]

/-- The bytes from byte 2 on lie below bit 304. -/
theorem serialByte_congr {v v' : U320} (h : v.toNat % 2 ^ 304 = v'.toNat % 2 ^ 304) {j : Nat} (hj : 2 ≤ j) :
    serialByte v j = serialByte v' j := by
  have below (u : U320) : (serialByte u j).toNat = u.toNat % 2 ^ 304 / 2 ^ (8 * (39 - j)) % 2 ^ 8 := by
    have hsplit : 2 ^ 304 = 2 ^ (8 * (39 - j)) * 2 ^ (304 - 8 * (39 - j)) := by rw [← Nat.pow_add]; congr 1; omega
    have hdvd : 2 ^ 8 ∣ 2 ^ (304 - 8 * (39 - j)) := Nat.pow_dvd_pow 2 (by omega)
    rw [hsplit, Nat.mod_mul_right_div_self, Nat.mod_mod_of_dvd _ hdvd, serialByte_toNat]
  apply BitVec.eq_of_toNat_eq
  rw [below, below, h]

theorem serialBytes_congr {v v' : U320} (h : v.toNat % 2 ^ 304 = v'.toNat % 2 ^ 304) {m : Nat} (hm : 2 ≤ m) (n : Nat) :
    (List.range' m n).map (serialByte v) = (List.range' m n).map (serialByte v') :=
  List.map_congr_left fun _ hj => serialByte_congr h (hm.trans (List.mem_range'_1.mp hj).1)

/-- Settles O38: the flag is byte 35, the hashed slice and the checksum are the bytes from byte 2 on. -/
theorem theTopTwoBytesAreNotTested : Obligations.TheTopTwoBytesAreNotTested := by
  intro v v' h
  have hflag : fastcheck v = fastcheck v' := by
    rw [Bool.eq_iff_iff, fastcheck_iff_serialByte, fastcheck_iff_serialByte, serialByte_congr h (by decide)]
  have hpayload : payload v = payload v' := by
    rw [payload_eq, payload_eq, serialBytes_congr h (by decide)]
  have hclaimed : claimed v = claimed v' := by
    rw [claimed_eq, claimed_eq, serialBytes_congr h (by decide)]
  constructor
  · rw [Bool.eq_iff_iff, isvalid_iff, isvalid_iff, hflag, hpayload, hclaimed]
  · rw [validMessages, hflag, hpayload, validMessages]

/-! ### The commands (R142, R146) -/

/-- A word written out as the encoding of a command that does not use `WDATA`, whatever the operand. -/
theorem decode_of_encode_cmd_eq {i : Instr} {w : BitVec 32} (hword : (encode i).cmd = w)
    (hwdata : i.opcode.usesWdata = false) (x : Limb) : decode w x = rangeCheck i := by
  subst hword
  exact decode_encode_cmd fun huse => by simp [hwdata] at huse

theorem decode_fchk_word (ra : Reg) (x : Limb) :
    decode (BitVec.ofNat 32 (0x40000000 + ra.val * 2 ^ 20)) x = .legal (.fchk ra) :=
  decode_of_encode_cmd_eq (i := .fchk ra) (by simp [encode, assembleWord]) rfl x

theorem decode_valid_word (ra : Reg) (x : Limb) :
    decode (BitVec.ofNat 32 (0x41000000 + ra.val * 2 ^ 20)) x = .legal (.valid ra) :=
  decode_of_encode_cmd_eq (i := .valid ra) (by simp [encode, assembleWord]) rfl x

theorem exec_fchk (ra : Reg) (s : State) :
    exec (.fchk ra) s = .next (s.respond .ok (boolDatum (fastcheck (s.readReg .a ra)))) := rfl

/-- Settles O36: `FCHK` is a response alone, and its datum is the flag test. -/
theorem fchkReportsTheFlagTest : Obligations.FchkReportsTheFlagTest := by
  refine fun ra => ⟨decode_fchk_word ra, fun s => ⟨_, exec_fchk ra s, ?_⟩⟩
  simp only [← fastcheck_iff]
  exact s.respond_sameCore_reported .ok _

/-- What `VALID` does on the value of its register when the hash unit answers (R146). -/
def validEffect (v : U320) : Effect := if fastcheck v then .checkHash v else .report .ok 0

/-- `VALID` in one equation, with the hash unit answering. -/
theorem exec_valid {s : State} (h : s.hashUnitAnswers = true) (ra : Reg) :
    exec (.valid ra) s = .next ((validEffect (s.readReg .a ra)).apply s) := by
  rw [exec_eq_answer, effect, validEffect, h]
  split <;> rfl

theorem validEffect_response (v : U320) : (validEffect v).response = ⟨.ok, boolDatum (isvalid v)⟩ := by
  rw [validEffect, isvalid]
  split <;> rfl

theorem validEffect_requests (v : U320) : (validEffect v).requests = validMessages v := by
  rw [validEffect, validMessages]
  split <;> rfl

theorem validEffect_sameCore (v : U320) (s : State) : SameCore s ((validEffect v).apply s) := by
  rw [validEffect]
  split <;> exact ⟨rfl, fun _ => rfl, rfl⟩

theorem range_map_serialByte (v : U320) : ((List.range 34).map fun i => serialByte v (2 + i)) = payload v := by
  rw [payload_eq, List.range'_eq_map_range, List.map_map]
  rfl

/-- Settles O39: the response of `VALID` is the verdict, its hash requests are the messages of stage 2. -/
theorem validReportsTheVerdictAndItsRequests : Obligations.ValidReportsTheVerdictAndItsRequests := by
  refine fun ra => ⟨decode_valid_word ra, fun s hunit => ⟨_, exec_valid hunit ra, ?_⟩⟩
  generalize s.readReg .a ra = v
  have hresponses := (validEffect v).apply_responses s
  have hrequests := (validEffect v).apply_hashReqs s
  rw [validEffect_response] at hresponses
  rw [validEffect_requests] at hrequests
  simp only [range_map_serialByte, ← fastcheck_iff]
  exact ⟨validEffect_sameCore v s,
    ⟨hresponses, Effect.apply_stream _ s, Effect.apply_hashUnitAnswers _ s⟩, hrequests⟩

/-- Settles O40: past stage 1 the command waits for the hash unit; when stage 1 fails it is a response alone. -/
theorem aSilentHashUnitStopsValidPastStageOne : Obligations.ASilentHashUnitStopsValidPastStageOne := by
  intro ra s hsilent
  constructor
  · intro hpass
    rw [exec_eq_answer, effect, if_pos hpass, hsilent]
    rfl
  · intro hfail
    refine ⟨s.respond .ok 0, ?_, s.respond_sameCore_reported .ok 0⟩
    rw [exec_eq_answer, effect, hfail]
    rfl

/-! ### `DECODE`, then `VALID` (R148) -/

/-- Settles O41: `DECODE` leaves in `W[rd]` the number the digits spell, and `VALID` judges what `W[rd]` holds. -/
theorem decodeThenValidJudgesTheKey : Obligations.DecodeThenValidJudgesTheKey := by
  intro rd s ds hunit hlen hds hdigits
  obtain ⟨v, hv, hnum⟩ := b58dec_memRead_of_digits hlen hds hdigits
  have hval : BitVec.ofNat 320 (numberOf ds) = v := by rw [← hnum, BitVec.ofNat_toNat, BitVec.setWidth_eq]
  have hdecode : exec (.decode rd) s = .next ((s.writeReg rd v).respond .ok 0) := exec_decode hv
  have hholds : ((s.writeReg rd v).respond .ok 0).Holds rd v := s.writeReg_holds rd v
  have hvalid := exec_valid (s := (s.writeReg rd v).respond .ok 0) hunit rd
  rw [hholds.readReg] at hvalid
  refine ⟨_, (execAll_cons hdecode _).trans (execAll_cons hvalid []), ?_⟩
  rw [hval, Effect.apply_responses, validEffect_response, State.respond_responses, State.writeReg_responses,
    List.append_assoc]
  rfl

end Sys2Proof.Machine
end

section
/-! PROOFS. The buffer and `LEN` (45_buffer.md R160 to R163): the words of `SB`, `LB`, `SLEN` and `GLEN`, and what the four
commands leave. -/

namespace Sys2Proof

/-! ### The words of the four commands -/

theorem decode_sb_word (addr : BitVec 6) (b : Byte) (x : Limb) :
    decode (BitVec.ofNat 32 (0x50000000 + addr.toNat * 2 ^ 8 + b.toNat)) x = .legal (.sb addr b) :=
  Machine.decode_of_encode_cmd_eq (i := .sb addr b) (by simp [encode, assembleWord]) rfl x

theorem decode_lb_word (addr : BitVec 6) (x : Limb) :
    decode (BitVec.ofNat 32 (0x51000000 + addr.toNat * 2 ^ 8)) x = .legal (.lb addr) :=
  Machine.decode_of_encode_cmd_eq (i := .lb addr) (by simp [encode, assembleWord]) rfl x

theorem decode_slen_word (imm8 : Byte) (x : Limb) :
    decode (BitVec.ofNat 32 (0x52000000 + imm8.toNat)) x = rangeCheck (.slen imm8) :=
  Machine.decode_of_encode_cmd_eq (by simp [encode, assembleWord]) rfl x

theorem decode_glen_word (x : Limb) : decode 0x53000000 x = .legal .glen :=
  Machine.decode_of_encode_cmd_eq (i := .glen) (by simp [encode, assembleWord]) rfl x

theorem slen_wellFormed_iff {imm8 : Byte} : WellFormed (.slen imm8) ↔ imm8.toNat ≤ 64 := decide_eq_true_iff

end Sys2Proof

namespace Sys2Proof.Machine

/-! ### What the four commands leave -/

theorem exec_sb (addr : BitVec 6) (b : Byte) (s : State) :
    exec (.sb addr b) s = .next ((s.memWrite addr.toNat [b]).respond .ok 0) := rfl

theorem exec_lb (addr : BitVec 6) (s : State) :
    exec (.lb addr) s = .next (s.respond .ok (zextByte (s.readByte addr.toNat))) := rfl

theorem exec_slen_of_le {imm8 : Byte} (h : imm8.toNat ≤ 64) (s : State) :
    exec (.slen imm8) s = .next ((s.setLen (BitVec.ofNat 7 imm8.toNat)).respond .ok 0) := by
  have hexec := exec_slen_ofNat h s
  rwa [BitVec.ofNat_toNat 8, BitVec.setWidth_eq] at hexec

theorem lengthOperand?_eq_none {imm8 : Byte} (h : 64 < imm8.toNat) : lengthOperand? imm8 = none :=
  if_neg (Nat.not_le_of_lt h)

theorem exec_slen_of_lt {imm8 : Byte} (h : 64 < imm8.toNat) (s : State) :
    exec (.slen imm8) s = .next (s.respond .illegalCommand 0) := by
  rw [exec, execSlen, lengthOperand?_eq_none h]
  rfl

theorem exec_glen (s : State) : exec .glen s = .next (s.respond .ok (BitVec.ofNat 64 s.len.toNat)) := rfl

/-- Settles O42: every six-bit address lies inside the buffer, so the store writes its one byte and no other. -/
theorem sbStoresOneByte : Obligations.SbStoresOneByte := by
  refine fun addr b => ⟨decode_sb_word addr b, fun s => ⟨_, exec_sb addr b s, ?_⟩⟩
  have hfits : addr.toNat + [b].length ≤ 64 := addr.isLt
  exact ⟨s.memWrite_holdsBytes hfits 0 Nat.one_pos, s.memWrite_sameBytesOutside hfits, rfl, rfl, rfl, rfl, rfl, rfl⟩

/-- Settles O43: `LB` is a response alone, and its datum is the byte the read gives, the stored one where there is one. -/
theorem lbReadsOneByte : Obligations.LbReadsOneByte := by
  refine fun addr => ⟨decode_lb_word addr, fun s => ⟨_, s.readByte addr.toNat, exec_lb addr s, ?_⟩⟩
  obtain ⟨hcore, hrequest, hreported⟩ := s.respond_sameCore_reported .ok (zextByte (s.readByte addr.toNat))
  exact ⟨hreported, fun _ => State.readByte_stored, hcore, hrequest⟩

/-- Settles O44: a length up to 64 fits `LEN`; above 64 the range check refuses the word. -/
theorem slenSetsTheLength : Obligations.SlenSetsTheLength := by
  refine fun imm8 x s => ⟨fun hle => ⟨?_, _, exec_slen_of_le hle s, ?_, rfl, fun _ => rfl, rfl, rfl, rfl, rfl⟩,
    fun hgt => ⟨?_, _, exec_slen_of_lt hgt s, respond_illegalCommand_answeredIllegal s⟩⟩
  · rw [decode_slen_word, rangeCheck_of_wellFormed (slen_wellFormed_iff.mpr hle)]
  · rw [State.respond_len, State.setLen_len, BitVec.toNat_ofNat]
    omega
  · rw [decode_slen_word]
    exact rangeCheck_of_not_wellFormed (by rw [slen_wellFormed_iff]; omega)

/-- Settles O45: `GLEN` is a response alone, and its datum is `LEN`. -/
theorem glenReadsTheLength : Obligations.GlenReadsTheLength :=
  ⟨decode_glen_word, fun s => ⟨_, exec_glen s, s.respond_sameCore_reported .ok _⟩⟩

end Sys2Proof.Machine
end

section
/-! PROOFS. What a command raises (60_exceptions.md R171 to R174) as a table with one row per status that is not `OK`, and
the host events that are no commands (70_reset_and_hazards.md R180, R190, R192). -/

namespace Sys2Proof.Machine

/-! ### A command that raises is a response alone (R173, R174) -/

/-- Settles O8: the illegal word is answered without an effect. -/
theorem anIllegalWordOnlyAnswers : Obligations.AnIllegalWordOnlyAnswers := fun _ s h =>
  ⟨_, runCommand_of_illegal h s, respond_illegalCommand_answeredIllegal s⟩

/-- The effects that write or ask the hash unit answer `OK`. -/
theorem Effect.eq_report_of_status_ne_ok {e : Effect} (h : e.response.status ≠ .ok) : ∃ st x, e = .report st x := by
  cases e with
  | report st x => exact ⟨st, x, rfl⟩
  | setReg | setLimb | storeByte | storeString | setLength | checkHash => exact absurd rfl h

/-- Settles O48: a status other than `OK` comes from an effect that is a response alone. -/
theorem aRaisingCommandChangesNothing : Obligations.ARaisingCommandChangesNothing := by
  intro c s t h
  obtain ⟨e, -, rfl⟩ := runCommand_eq_next_iff.mp h
  refine ⟨e.response, e.apply_responses s, fun hst => ?_⟩
  obtain ⟨st, x, rfl⟩ := Effect.eq_report_of_status_ne_ok hst
  obtain ⟨hcore, hrequest, -⟩ := s.respond_sameCore_reported st x
  exact ⟨hcore, hrequest⟩

/-! ### The table of R171 -/

/-- The table of R171: a command, the state it meets, and the response that is not `OK`. -/
inductive Raises (c : Command) (s : State) : Response → Prop where
  /-- `DECODE` with `LEN` not 52. -/
  | length (rd : Reg) (hword : decode c.cmd c.wdata = .legal (.decode rd)) (hlen : s.len ≠ 52) :
      Raises c s ⟨.invalidLength, 0⟩
  /-- `DECODE` with `LEN` 52, at the first byte outside the alphabet. -/
  | character (rd : Reg) (hword : decode c.cmd c.wdata = .legal (.decode rd)) (hlen : s.len = 52) (i : Nat) (hi : i < 52)
      (hbefore : ∀ j < i, b58index (s.readByte j) ≠ none) (hbad : b58index (s.readByte i) = none) :
      Raises c s ⟨.invalidCharacter, zextByte (s.readByte i)⟩
  /-- A word that is no legal command. -/
  | illegal (hword : ∃ why, decode c.cmd c.wdata = .illegal why) : Raises c s ⟨.illegalCommand, 0⟩

/-- A row of the table is what the core answers. -/
theorem Raises.runCommand_eq {c : Command} {s : State} {r : Response} (h : Raises c s r) :
    runCommand c s = .next (s.respond r.status r.rdata) := by
  cases h with
  | length rd hword hlen =>
    rw [runCommand_of_legal hword, exec_decode (b58dec_memRead_of_length_ne hlen)]
    rfl
  | character rd hword hlen i hi hbefore hbad =>
    rw [runCommand_of_legal hword, exec_decode (b58dec_memRead_of_bad_byte hlen hi hbefore hbad)]
    rfl
  | illegal hword => exact runCommand_of_illegal hword s

/-- The alphabet test fails at a first byte or nowhere. -/
theorem first_bad_byte_or_none (s : State) :
    (∃ i < 52, (∀ j < i, b58index (s.readByte j) ≠ none) ∧ b58index (s.readByte i) = none) ∨
      ∀ i < 52, b58index (s.readByte i) ≠ none := by
  by_cases h : ∃ i, i < 52 ∧ b58index (s.readByte i) = none
  · obtain ⟨hi, hbad⟩ := Nat.find_spec h
    exact .inl ⟨Nat.find h, hi, fun j hj hj' => Nat.find_min h hj ⟨hj.trans hi, hj'⟩, hbad⟩
  · exact .inr fun i hi hbad => h ⟨i, hi, hbad⟩

theorem b58dec_memRead_of_alphabet {s : State} (hlen : s.len = 52) (h : ∀ i < 52, b58index (s.readByte i) ≠ none) :
    ∃ v, b58dec (s.memRead 0 s.len.toNat) = .ok v := by
  have hdigits : ∀ i < 52, b58index (s.readByte i) =
      ((List.range 52).map fun j => (b58index (s.readByte j)).getD 0)[i]? := by
    intro i hi
    obtain ⟨d, hd⟩ := Option.ne_none_iff_exists'.mp (h i hi)
    simp [hi, hd]
  obtain ⟨v, hv, -⟩ := b58dec_memRead_of_digits hlen (by simp) hdigits
  exact ⟨v, hv⟩

/-- `DECODE` answers `OK` or from one of its two rows of the table. -/
theorem raises_of_decode_effect {c : Command} {rd : Reg} {s : State} {e : Effect}
    (hword : decode c.cmd c.wdata = .legal (.decode rd)) (he : effect (.decode rd) s = some e)
    (hst : e.response.status ≠ .ok) : Raises c s e.response := by
  cases he
  by_cases hlen : s.len = 52
  · obtain ⟨i, hi, hbefore, hbad⟩ | hall := first_bad_byte_or_none s
    · rw [b58dec_memRead_of_bad_byte hlen hi hbefore hbad]
      exact .character rd hword hlen i hi hbefore hbad
    · obtain ⟨v, hv⟩ := b58dec_memRead_of_alphabet hlen hall
      rw [hv] at hst
      exact absurd rfl hst
  · rw [b58dec_memRead_of_length_ne hlen]
    exact .length rd hword hlen

theorem limbIndex?_of_le {k : BitVec 3} (h : k.toNat ≤ 4) : ∃ i, limbIndex? k = some i := ⟨_, dif_pos (by omega)⟩

/-- Past the range checks only `DECODE` can answer anything but `OK`. -/
theorem effect_status_ok {i : Instr} {s : State} {e : Effect} (hwf : WellFormed i) (hi : ∀ rd, i ≠ .decode rd)
    (he : effect i s = some e) : e.response.status = .ok := by
  cases i with
  | ldl rd k x =>
    obtain ⟨j, hj⟩ := limbIndex?_of_le (ldl_wellFormed_iff.mp hwf)
    cases he
    rw [hj]
    rfl
  | rdl ra k =>
    obtain ⟨j, hj⟩ := limbIndex?_of_le (rdl_wellFormed_iff.mp hwf)
    cases he
    rw [hj]
    rfl
  | slen imm8 =>
    have hn : lengthOperand? imm8 = some (BitVec.ofNat 7 imm8.toNat) := if_pos (slen_wellFormed_iff.mp hwf)
    cases he
    rw [hn]
    rfl
  | decode rd => exact absurd rfl (hi rd)
  | valid ra =>
    simp only [effect] at he
    split_ifs at he <;> cases he <;> rfl
  | ldz | add | muls | tobytes | encode | fchk | sb | lb | glen => cases he; rfl

/-- Every answer that is not `OK` stands in the table. -/
theorem raises_of_commandEffect {c : Command} {s : State} {e : Effect} (he : commandEffect c s = some e)
    (hst : e.response.status ≠ .ok) : Raises c s e.response := by
  unfold commandEffect at he
  cases hword : decode c.cmd c.wdata with
  | illegal why =>
    rw [hword] at he
    cases he
    exact .illegal ⟨why, hword⟩
  | legal i =>
    rw [hword] at he
    by_cases hi : ∃ rd, i = .decode rd
    · obtain ⟨rd, rfl⟩ := hi
      exact raises_of_decode_effect hword he hst
    · obtain ⟨hwf, -⟩ := aLegalWordIsTheEncodingOfItsCommand _ _ _ hword
      exact absurd (effect_status_ok hwf (not_exists.mp hi) he) hst

/-! ### The table read in both directions -/

section
variable {c : Command} {s t : State} {r : Response}

theorem raises_of_response (h : runCommand c s = .next t) (hr : t.responses = s.responses ++ [r])
    (hst : r.status ≠ .ok) : Raises c s r := by
  obtain ⟨e, he, rfl⟩ := runCommand_eq_next_iff.mp h
  obtain rfl : e.response = r := by simpa using hr
  exact raises_of_commandEffect he hst

theorem Raises.response_eq {r' : Response} (hraises : Raises c s r') (h : runCommand c s = .next t)
    (hr : t.responses = s.responses ++ [r]) : r = r' := by
  obtain rfl : s.respond r'.status r'.rdata = t := Host.Outcome.next.inj (hraises.runCommand_eq.symm.trans h)
  simpa using hr.symm

theorem Raises.of_invalidLength {x : Limb} (h : Raises c s ⟨.invalidLength, x⟩) :
    (s.len ≠ 52 ∧ ∃ rd, decode c.cmd c.wdata = .legal (.decode rd)) ∧ x = 0 := by
  cases h with
  | length rd hword hlen => exact ⟨⟨hlen, rd, hword⟩, rfl⟩

theorem Raises.of_invalidCharacter {x : Limb} (h : Raises c s ⟨.invalidCharacter, x⟩) :
    (s.len = 52 ∧ ∃ rd, decode c.cmd c.wdata = .legal (.decode rd)) ∧
      ∃ i < 52, (∀ j < i, b58index (s.readByte j) ≠ none) ∧ b58index (s.readByte i) = none ∧
        x = zextByte (s.readByte i) := by
  cases h with
  | character rd hword hlen i hi hbefore hbad => exact ⟨⟨hlen, rd, hword⟩, i, hi, hbefore, hbad, rfl⟩

theorem Raises.of_illegalCommand {x : Limb} (h : Raises c s ⟨.illegalCommand, x⟩) :
    (∃ why, decode c.cmd c.wdata = .illegal why) ∧ x = 0 := by
  cases h with
  | illegal hword => exact ⟨hword, rfl⟩

theorem exists_raises_invalidCharacter {rd : Reg} (hlen : s.len = 52)
    (hbad : ∃ i < 52, b58index (s.readByte i) = none) (hword : decode c.cmd c.wdata = .legal (.decode rd)) :
    ∃ x, Raises c s ⟨.invalidCharacter, x⟩ := by
  obtain ⟨i, hi, hbefore, hfirst⟩ | hall := first_bad_byte_or_none s
  · exact ⟨_, .character rd hword hlen i hi hbefore hfirst⟩
  · obtain ⟨i, hi, hnone⟩ := hbad
    exact absurd hnone (hall i hi)

end

/-- Settles O49: the response is not `OK` exactly when it stands in the table, and each status has its own row. -/
theorem whichCommandRaisesWhat : Obligations.WhichCommandRaisesWhat := by
  rintro c s t ⟨st, x⟩ h hr
  have hraises (hst : st ≠ .ok) : Raises c s ⟨st, x⟩ := raises_of_response h hr hst
  have hstatus {r' : Response} (h' : Raises c s r') : st = r'.status := congrArg Response.status (h'.response_eq h hr)
  refine ⟨⟨?_, ?_⟩, ?_, ⟨?_, ?_⟩, ?_, ⟨?_, ?_⟩, ?_⟩
  · rintro (rfl : st = _)
    exact (hraises nofun).of_invalidLength.1
  · rintro ⟨hlen, rd, hword⟩
    exact hstatus (.length rd hword hlen)
  · rintro (rfl : st = _)
    exact (hraises nofun).of_invalidLength.2
  · rintro (rfl : st = _)
    obtain ⟨⟨hlen, hword⟩, i, hi, -, hbad, -⟩ := (hraises nofun).of_invalidCharacter
    exact ⟨hlen, ⟨i, hi, hbad⟩, hword⟩
  · rintro ⟨hlen, hbad, rd, hword⟩
    obtain ⟨_, h'⟩ := exists_raises_invalidCharacter hlen hbad hword
    exact hstatus h'
  · rintro (rfl : st = _)
    exact (hraises nofun).of_invalidCharacter.2
  · rintro (rfl : st = _)
    exact (hraises nofun).of_illegalCommand.1
  · exact fun hword => hstatus (.illegal hword)
  · rintro (rfl : st = _)
    exact (hraises nofun).of_illegalCommand.2

/-! ### The host events that are no commands (R180, R190, R192) -/

theorem step_of_stream_nil {s : State} (h : s.stream = []) : step s = .next s := by
  rw [step, takeEvent, h]

theorem step_of_stream_reset {rest : List HostEvent} {s : State} (h : s.stream = .reset :: rest) :
    step s = .next (State.coreReset { s with stream := rest }) := by
  rw [step, takeEvent, h]
  rfl

theorem step_of_stream_overlap {c d : Command} {rest : List HostEvent} {s : State} (h : s.stream = .overlap c d :: rest) :
    step s = .refused .overlappingCommands := by
  rw [step, takeEvent, h]
  rfl

/-- Settles O56: the three events in one equation each; the reset keeps the ledgers and forgets the rest of the core. -/
theorem theOtherEventsOfTheHost : Obligations.TheOtherEventsOfTheHost :=
  ⟨fun _ => step_of_stream_nil,
    fun _ _ h => ⟨_, step_of_stream_reset h, rfl, unwrittenRegs_written, Memory.stored_nil, rfl, rfl, rfl⟩,
    fun _ _ _ _ => step_of_stream_overlap⟩

end Sys2Proof.Machine
end

section
/-! PROOFS. A reset during a command (70_reset_and_hazards.md R190, U15), and the one response of each command while the
hash unit answers (R195). -/

namespace Sys2Proof.Machine

/-! ### The hash requests of a command (R146, R190) -/

theorem effect_requests_of_ne_valid {i : Instr} {s : State} {e : Effect} (hi : ∀ ra, i ≠ .valid ra)
    (he : effect i s = some e) : e.requests = [] := by
  cases i with
  | valid ra => exact absurd rfl (hi ra)
  | ldl rd k x => cases he; cases limbIndex? k <;> rfl
  | rdl ra k => cases he; cases limbIndex? k <;> rfl
  | decode rd => cases he; cases b58dec (s.memRead 0 s.len.toNat) <;> rfl
  | slen imm8 => cases he; cases lengthOperand? imm8 <;> rfl
  | ldz | add | muls | tobytes | encode | fchk | sb | lb | glen => cases he; rfl

/-- A `VALID` that completes makes all of its requests, whether or not the unit answers. -/
theorem effect_valid_requests {ra : Reg} {s : State} {e : Effect} (he : effect (.valid ra) s = some e) :
    e.requests = validMessages (s.readReg .a ra) := by
  unfold validMessages
  simp only [effect] at he
  split_ifs at he with hpass <;> cases he
  · rw [if_pos hpass]; rfl
  · rw [if_neg hpass]; rfl

/-- A silent unit lets `VALID` complete only where it has no message to send. -/
theorem validMessages_eq_nil_of_silent {ra : Reg} {s : State} {e : Effect} (hsilent : s.hashUnitAnswers = false)
    (he : effect (.valid ra) s = some e) : validMessages (s.readReg .a ra) = [] := by
  simp only [effect, hsilent, Bool.false_eq_true, if_false] at he
  split_ifs at he with hpass
  exact if_neg hpass

theorem commandMessages_of_valid {c : Command} {ra : Reg} (h : decode c.cmd c.wdata = .legal (.valid ra)) (s : State) :
    commandMessages c s = if s.hashUnitAnswers then validMessages (s.readReg .a ra)
      else (validMessages (s.readReg .a ra)).take 1 := by
  rw [commandMessages, h]

theorem commandMessages_of_ne_valid {c : Command} {i : Instr} (h : decode c.cmd c.wdata = .legal i)
    (hi : ∀ ra, i ≠ .valid ra) (s : State) : commandMessages c s = [] := by
  rw [commandMessages, h]
  cases i with
  | valid ra => exact absurd rfl (hi ra)
  | ldz | ldl | rdl | add | muls | tobytes | decode | encode | fchk | sb | lb | slen | glen => rfl

/-- The messages an abandoned command may have sent are the requests it makes when it completes. -/
theorem commandMessages_eq_requests {c : Command} {s : State} {e : Effect} (he : commandEffect c s = some e) :
    commandMessages c s = e.requests := by
  unfold commandEffect at he
  cases hword : decode c.cmd c.wdata with
  | illegal why =>
    rw [hword] at he
    cases he
    rw [commandMessages, hword]
    rfl
  | legal i =>
    rw [hword] at he
    by_cases hi : ∃ ra, i = .valid ra
    · obtain ⟨ra, rfl⟩ := hi
      rw [commandMessages_of_valid hword, effect_valid_requests he]
      split_ifs with hunit
      · rfl
      · rw [validMessages_eq_nil_of_silent (Bool.eq_false_of_not_eq_true hunit) he, List.take_nil]
    · rw [commandMessages_of_ne_valid hword (not_exists.mp hi), effect_requests_of_ne_valid (not_exists.mp hi) he]

/-! ### Reset during a command (R190) -/

theorem step_of_stream_resetDuring {c : Command} {rest : List HostEvent} {s : State}
    (h : s.stream = .resetDuring c :: rest) : step s = .next (abandonCommand c { s with stream := rest }) := by
  rw [step, takeEvent, h]
  rfl

theorem abandonCommand_hashReqs (c : Command) (s : State) :
    (abandonCommand c s).hashReqs = s.hashReqs ++ (commandMessages c s).take (Config.freeCount s.draws) := rfl

/-- What an abandoned command has sent is a first part of what it sends when it completes. -/
theorem abandonCommand_hashReqs_prefix {c : Command} {s u : State} (h : runCommand c s = .next u) :
    (abandonCommand c s).hashReqs <+: u.hashReqs := by
  obtain ⟨e, he, rfl⟩ := runCommand_eq_next_iff.mp h
  rw [abandonCommand_hashReqs, commandMessages_eq_requests he, Effect.apply_hashReqs, List.prefix_append_right_inj]
  exact List.take_prefix _ _

/-- Settles O57: the abandoned command leaves the reset state, and a first part of its requests. -/
theorem aResetAbandonsTheCommandInProgress : Obligations.AResetAbandonsTheCommandInProgress :=
  fun _ _ _ h => ⟨_, step_of_stream_resetDuring h, rfl, unwrittenRegs_written, Memory.stored_nil, rfl, rfl,
    fun _ hu => ⟨List.prefix_append _ _, abandonCommand_hashReqs_prefix hu⟩⟩

/-! ### One response per command (R195) -/

theorem exists_effect {s : State} (h : s.hashUnitAnswers = true) (i : Instr) : ∃ e, effect i s = some e := by
  cases i with
  | valid ra =>
    simp only [effect, h, if_true]
    split <;> exact ⟨_, rfl⟩
  | ldz | ldl | rdl | add | muls | tobytes | decode | encode | fchk | sb | lb | slen | glen => exact ⟨_, rfl⟩

theorem exists_commandEffect {s : State} (h : s.hashUnitAnswers = true) (c : Command) :
    ∃ e, commandEffect c s = some e := by
  unfold commandEffect
  cases decode c.cmd c.wdata with
  | legal i => exact exists_effect h i
  | illegal why => exact ⟨_, rfl⟩

/-- While the hash unit answers, a step takes the next command, completes it with one response, and leaves the unit
answering. -/
theorem exists_step_of_stream_command {c : Command} {rest : List HostEvent} {s : State}
    (hunit : s.hashUnitAnswers = true) (h : s.stream = .command c :: rest) :
    ∃ t r, step s = .next t ∧ t.hashUnitAnswers = true ∧ t.stream = rest ∧ t.responses = s.responses ++ [r] := by
  obtain ⟨e, he⟩ := exists_commandEffect (s := { s with stream := rest }) hunit c
  have hrun := runCommand_eq_next_iff.mpr ⟨e, he, rfl⟩
  exact ⟨_, e.response, (step_of_stream_command h).trans hrun, (e.apply_hashUnitAnswers _).trans hunit,
    e.apply_stream _, e.apply_responses _⟩

theorem run_succ_of_step {M : Host.Core} {s s' : M.State} (h : M.step s = .next s') (k : Nat) :
    M.run (k + 1) s = M.run k s' := by
  rw [Host.Core.run, h]

/-- Settles O60, by induction on the commands: each step takes one off the stream and appends one response, with the
hash unit still answering. -/
theorem everyCommandIsAnsweredOnce : Obligations.EveryCommandIsAnsweredOnce := by
  intro cs rest
  induction cs with
  | nil => exact fun s _ hstream => ⟨s, rfl, hstream, List.prefix_rfl, rfl⟩
  | cons c cs ih =>
    intro s hunit hstream
    obtain ⟨s', r, hstep, hunit', hstream', hresponses⟩ := exists_step_of_stream_command hunit hstream
    obtain ⟨t, hrun, hrest, hfirst, hlength⟩ := ih s' hunit' hstream'
    rw [hresponses] at hfirst hlength
    refine ⟨t, (run_succ_of_step (M := core) hstep _).trans hrun, hrest, (List.prefix_append _ _).trans hfirst, ?_⟩
    rw [hlength, List.length_append, List.length_singleton, List.length_cons, Nat.add_assoc, Nat.add_comm 1]

end Sys2Proof.Machine
end

section
/-! PROOFS. The Base58 alphabet as six runs of consecutive byte values (43_base58.md R120, R122). -/

namespace Sys2Proof.Machine

/-- The `n` bytes with the values from `lo` on. -/
def byteRun (lo n : Nat) : List Byte := (List.range' lo n).map (BitVec.ofNat 8)

/-- The digits; `A` to `H`, `J` to `N`, `P` to `Z`; `a` to `k`, `m` to `z`. -/
theorem alphabet_eq_byteRuns :
    alphabet = byteRun 0x31 9 ++ (byteRun 0x41 8 ++ (byteRun 0x4A 5 ++ (byteRun 0x50 11 ++
      (byteRun 0x61 11 ++ (byteRun 0x6D 14 ++ []))))) := rfl

/-- A byte of a leading run stands at its distance from the run's first value; any other is looked for behind the run. -/
theorem positionFrom_byteRun_append (c : Byte) {lo n : Nat} (h : lo + n ≤ 256) (l : List Byte) (k : Nat) :
    positionFrom c (byteRun lo n ++ l) k =
      if lo ≤ c.toNat ∧ c.toNat < lo + n then some (c.toNat - lo + k) else positionFrom c l (k + n) := by
  induction n generalizing lo k with
  | zero => rw [if_neg (by omega)]; rfl
  | succ n ih =>
    have hcons : byteRun lo (n + 1) ++ l = BitVec.ofNat 8 lo :: (byteRun (lo + 1) n ++ l) := rfl
    rw [hcons, positionFrom, ih (by omega)]
    by_cases hc : c.toNat = lo
    · have heq : c = BitVec.ofNat 8 lo := by rw [← hc, BitVec.ofNat_toNat, BitVec.setWidth_eq]
      rw [if_pos heq, if_pos (by omega), hc, Nat.sub_self, Nat.zero_add]
    · have hne : c ≠ BitVec.ofNat 8 lo := by
        rintro rfl
        exact hc (Nat.mod_eq_of_lt (by omega))
      rw [if_neg hne]
      by_cases hin : lo ≤ c.toNat ∧ c.toNat < lo + (n + 1)
      · rw [if_pos (by omega), if_pos hin, show c.toNat - (lo + 1) + (k + 1) = c.toNat - lo + k by omega]
      · rw [if_neg (by omega), if_neg hin, Nat.add_right_comm, Nat.add_assoc]

/-- Settles O25: one branch per run of the alphabet, in the order of the digits. -/
theorem theDigitOfAByte : Obligations.TheDigitOfAByte := by
  intro c
  rw [b58index, alphabet_eq_byteRuns]
  simp (disch := decide) only [positionFrom_byteRun_append, positionFrom, Nat.reduceAdd, Nat.add_zero, Nat.lt_succ_iff]

end Sys2Proof.Machine
end
